-- ==== Sys2Proof/Word.lean ====
section
/-! DEFINITION. The value types of the engine: machine words, bytes, limb vectors, byte buffers
(spec/00_scope.md R8, R9, R11; spec/10_state.md R21, R28, R30). -/

namespace Sys2Proof

/-- One limb, one `W` register, one command word: 32 unsigned bits (R8 `LIMB_BITS`, R9 `WORD_BITS`). -/
abbrev Word := BitVec 32

/-- One byte of a buffer. -/
abbrev Byte := BitVec 8

/-- The value of a field-element register: ten limbs, limb 0 first (R21). -/
abbrev Limbs := Vector Word 10

/-- The value of a byte buffer: exactly 32 bytes, byte 0 first (R28). -/
abbrev Buffer := Vector Byte 32

/-- Ten naturals: the limbs of a vector read as numbers, or the accumulators inside one command.
R10: values are naturals and arithmetic on them is exact. Never a field of `State`. -/
abbrev Digits := Fin 10 → Nat

end Sys2Proof
end

