-- ==== Sys2Proof/Config.lean ====
section
/-! DEFINITION. What an implementation fixes (spec/00_scope.md R9) and the values the spec leaves open
(spec/00_scope.md R12 `UNSPECIFIED_N`; spec/93_implementation_defined.md U1, U2, U3). -/

namespace Sys2Proof

/-- The sizes of the three register files, fixed at build time (R9 `NF`, `NB`, `NW`). -/
structure Counts where
  nf : Nat
  nb : Nat
  nw : Nat
  deriving DecidableEq, Repr

/-- R9: each count is at least 1 and at most 16. -/
abbrev Counts.Legal (c : Counts) : Prop :=
  (1 ≤ c.nf ∧ c.nf ≤ 16) ∧ (1 ≤ c.nb ∧ c.nb ≤ 16) ∧ (1 ≤ c.nw ∧ c.nw ≤ 16)

/-- R9: the defaults, `NF` = 16, `NB` = 4, `NW` = 8.  The machine itself is written for any counts
(they are the lengths of the register files of its state); these are the counts of `State.reset`. -/
def Config.counts : Counts := ⟨16, 4, 8⟩

/-- R9 `FEE_BASE`: where the platform places the window; the spec leaves it open, so it has no value here. -/
opaque Config.feeBase : Nat

/-- What limb `i` of `F[k]` reads as at the free counter `t` while neither the host nor a command has
written it since reset (R43, U3: any value, and two reads need not agree).  Arguments: `t k i`. -/
opaque Config.unwrittenLimb : Nat → Nat → Nat → BitVec 32

/-- The same for byte `j` of `B[k]`.  Arguments: `t k j`. -/
opaque Config.unwrittenByte : Nat → Nat → Nat → BitVec 8

/-- The same for `W[k]`.  Arguments: `t k`. -/
opaque Config.unwrittenWord : Nat → Nat → BitVec 32

/-- Limb `i` of the destination of a command whose data precondition failed, at the free counter `t`
(U1, U2: any value).  Arguments: `t i`. -/
opaque Config.unspecLimb : Nat → Nat → BitVec 32

/-- Byte `j` of the destination of `to_bytes` whose precondition failed (U1).  Arguments: `t j`. -/
opaque Config.unspecByte : Nat → Nat → BitVec 8

/-- The destination word of `cmov` whose predicate is neither 0 nor 1 (U2).  Argument: `t`. -/
opaque Config.unspecWord : Nat → BitVec 32

end Sys2Proof
end

