-- ==== Sys2Proof/Syntax.lean ====
section
/-! DEFINITION. The twelve commands (spec/30_encoding.md R88), one constructor per row of
spec/opcode_table.json.  Operands stand in the order of the fields `rd`, `ra`, `rb`, `rc` (R81). -/

namespace Sys2Proof

/-- An index of a field-element register, `F0` .. `F15` (R83: unsigned, 0 .. 15). -/
abbrev FIdx := Fin 16

/-- An index of a byte buffer, `B0` .. `B15`. -/
abbrev BIdx := Fin 16

/-- An index of a word register, `W0` .. `W15`. -/
abbrev WIdx := Fin 16

/-- The three register files a field of a command word can index (R82). -/
inductive RegFile where
  | F
  | B
  | W
  deriving DecidableEq, Repr

/-- A register named by its file and its index (R11). -/
structure Reg where
  file : RegFile
  idx : Fin 16
  deriving DecidableEq, Repr

/-- R88: the command set. -/
inductive Instr where
  | add (rd ra rb : FIdx)
  | sub (rd ra rb : FIdx)
  | opp (rd ra : FIdx)
  | carry (rd ra : FIdx)
  | relax (rd ra : FIdx)
  | carryMul (rd ra rb : FIdx)
  | carrySquare (rd ra : FIdx)
  | carryScmulConst (rd ra : FIdx)
  | cmov (rd ra rb rc : WIdx)
  | select (rd ra rb : FIdx) (rc : WIdx)
  | toBytes (rd : BIdx) (ra : FIdx)
  | fromBytes (rd : FIdx) (ra : BIdx)
  deriving DecidableEq, Repr

end Sys2Proof
end

