-- ==== Sys2Proof/Machine/State.lean ====
section
/-! DEFINITION. What the machine holds (spec/10_state.md), the ways a step could stop, and reset
(spec/70_reset_and_hazards.md R190, spec/10_state.md R42). -/

namespace Sys2Proof.Machine

/-- A storage cell of a data register: what it holds, and whether the host or a command has written it
since the last reset.  The hardware does not keep the mark (R43): it is the model's, so that a read of a
cell nothing has written can be any value (U3).  What an unwritten cell holds is never read. -/
structure Slot (α : Type) where
  value : α
  written : Bool
  deriving DecidableEq, Repr

/-- The storage of one field-element register: ten limbs (R21). -/
abbrev FReg := Vector (Slot Word) 10

/-- The storage of one byte buffer: 32 bytes (R28). -/
abbrev BReg := Vector (Slot Byte) 32

/-- The storage of one word register (R30). -/
abbrev WReg := Slot Word

/-- A field-element register after reset: no limb written. -/
def FReg.blank : FReg := Vector.ofFn fun _ => ⟨0, false⟩

/-- A byte buffer after reset: no byte written. -/
def BReg.blank : BReg := Vector.ofFn fun _ => ⟨0, false⟩

/-- A word register after reset: not written. -/
def WReg.blank : WReg := ⟨0, false⟩

/-- A word index into the host window: bits 10:2 of the byte offset, which is all the port carries (R55). -/
abbrev Offset := BitVec 9

/-- One operation of the host (R12, R52, R53), or the platform's hard reset input (R190), which takes
effect as an operation of its own (R174).  There is no other constructor: an access that is not an
aligned 32-bit word cannot be expressed on the port (R55, U7). -/
inductive HostOp where
  | write (off : Offset) (v : Word)
  | read (off : Offset)
  | hardReset
  deriving DecidableEq, Repr

/-- The state of the engine and of the one host that drives it (R20).  The engine has no program
counter, no memory and no flags (R31, R32, R50). -/
structure State where
  /-- `F[0]` .. `F[NF-1]`; the length of the list is the parameter `NF` (R9, R21). -/
  f : List FReg
  /-- `B[0]` .. `B[NB-1]`; the length of the list is `NB` (R9, R28). -/
  b : List BReg
  /-- `W[0]` .. `W[NW-1]`; the length of the list is `NW` (R9, R30). -/
  w : List WReg
  /-- `STATUS.ERR` (R35); the other bits of `STATUS` are hardwired 0 and not stored. -/
  err : Bool
  /-- `CAUSE.CODE` (R36); the other bits of `CAUSE` are hardwired 0 and not stored. -/
  cause : BitVec 4
  /-- `ERRCMD` (R37). -/
  errcmd : Word
  /-- The host's list of operations still to come, the next one first (R31, R60). -/
  ops : List HostOp
  /-- The index of the next operation in the host's list (R31): the host's, a natural with no wrap. -/
  pc : Nat
  /-- What `HostRead` has returned to the host, the latest first (R53). -/
  reads : List Word
  /-- The model's own counter: the free values of an operation are drawn at it, and every operation that
  can draw one advances it. -/
  free : Nat
  deriving DecidableEq, Repr

/-- The command faults (R171).  Taking one is a NEXT state (Machine/Ops.lean `State.raiseFault`). -/
inductive CommandFault where
  /-- Cause 1: the word matches no row of the opcode map. -/
  | illegalCommand
  /-- Cause 2: a used index is not below the count of its register file. -/
  | regRange
  /-- Cause 3: the destination is also a source. -/
  | aliased
  deriving DecidableEq, Repr

/-- The ways a step could stop with a fault: none.  Every command either retires, raises a command fault
(a next state), or is discarded (a next state), whatever the data (R89, R170, R176); every host access
completes (R52, R53).  No meaning raises a fault of the machine, so the type has no constructor. -/
inductive Fault where
  deriving DecidableEq, Repr

/-- The ways a step could be refused. -/
inductive Refusal where
  /-- Raised by an arm of `exec` whose instruction has no meaning yet; no arm raises it. Safe: nothing
  can be proved of a refused step. -/
  | notModelled (mnemonic : String)
  deriving DecidableEq, Repr

/-- The machine right after reset with the given register counts: `STATUS`, `CAUSE`, `ERRCMD` are 0 and
every data register is UNSPECIFIED, that is, not written (R42, R190); the host has done nothing yet. -/
def State.resetWith (c : Counts) : State :=
  { f := List.replicate c.nf FReg.blank, b := List.replicate c.nb BReg.blank,
    w := List.replicate c.nw WReg.blank, err := false, cause := 0, errcmd := 0,
    ops := [], pc := 0, reads := [], free := 0 }

/-- The machine right after reset with the default counts (R9). -/
def State.reset : State := State.resetWith Config.counts

end Sys2Proof.Machine
end

