-- ==== Sys2Proof/Machine/Flags.lean ====
section
/-! DEFINITION. The status registers as the host reads them (spec/10_state.md R33 to R37).  The engine has
no condition codes and no arithmetic flags, and no command writes one (R32); the one status bit,
`STATUS.ERR`, is written only by a command fault and by reset. -/

namespace Sys2Proof.Machine

/-- R171: the cause code of a command fault. -/
def CommandFault.code : CommandFault → BitVec 4
  | .illegalCommand => 1
  | .regRange => 2
  | .aliased => 3

/-- R35: `STATUS`, bit 0 `ERR`, bits 31:1 hardwired 0. -/
def State.statusWord (s : State) : Word := if s.err then 1 else 0

/-- R36: `CAUSE`, bits 3:0 `CODE`, bits 31:4 hardwired 0. -/
def State.causeWord (s : State) : Word := s.cause.zeroExtend 32

/-- R37: `ERRCMD`, all 32 bits. -/
def State.errcmdWord (s : State) : Word := s.errcmd

end Sys2Proof.Machine
end

