-- ==== Sys2Proof/WellFormed.lean ====
section
/-! DEFINITION. When the form of a command is accepted by an engine with given register counts:
the two checks of spec/30_encoding.md R89, steps 3 and 4, written out per command from the operand
lists of the command rules.  The machine has its own, table-driven form of them
(Machine/Operands.lean `formFault`); Sys2Proof/Laws/Form.lean proves the two agree. -/

namespace Sys2Proof

/-- R89 step 3 passes: every index the command uses is below the count of its register file. -/
def Instr.inRange (c : Counts) : Instr → Bool
  | .add d a b => decide (d.val < c.nf) && decide (a.val < c.nf) && decide (b.val < c.nf)
  | .sub d a b => decide (d.val < c.nf) && decide (a.val < c.nf) && decide (b.val < c.nf)
  | .opp d a => decide (d.val < c.nf) && decide (a.val < c.nf)
  | .carry d a => decide (d.val < c.nf) && decide (a.val < c.nf)
  | .relax d a => decide (d.val < c.nf) && decide (a.val < c.nf)
  | .carryMul d a b => decide (d.val < c.nf) && decide (a.val < c.nf) && decide (b.val < c.nf)
  | .carrySquare d a => decide (d.val < c.nf) && decide (a.val < c.nf)
  | .carryScmulConst d a => decide (d.val < c.nf) && decide (a.val < c.nf)
  | .cmov d a b p => decide (d.val < c.nw) && decide (a.val < c.nw) && decide (b.val < c.nw) && decide (p.val < c.nw)
  | .select d a b p => decide (d.val < c.nf) && decide (a.val < c.nf) && decide (b.val < c.nf) && decide (p.val < c.nw)
  | .toBytes d a => decide (d.val < c.nb) && decide (a.val < c.nf)
  | .fromBytes d a => decide (d.val < c.nf) && decide (a.val < c.nb)

/-- R89 step 4 passes: the destination is no source of the same file.  `select`'s predicate is in
another file than its destination, and the codec's two operands are in different files. -/
def Instr.noAlias : Instr → Bool
  | .add d a b => d != a && d != b
  | .sub d a b => d != a && d != b
  | .opp d a => d != a
  | .carry d a => d != a
  | .relax d a => d != a
  | .carryMul d a b => d != a && d != b
  | .carrySquare d a => d != a
  | .carryScmulConst d a => d != a
  | .cmov d a b p => d != a && d != b && d != p
  | .select d a b _ => d != a && d != b
  | .toBytes _ _ => true
  | .fromBytes _ _ => true

/-- The command raises neither REG_RANGE nor ALIAS on an engine with the counts `c`. -/
def Instr.wf (c : Counts) (i : Instr) : Bool := i.inRange c && i.noAlias

end Sys2Proof
end

