-- ==== Sys2Proof/Decode.lean ====
section
/-! DEFINITION. Command words: fields, decoder, encoder, and the opcode map of spec/30_encoding.md
(R80, R81, R83, R88, R91).  A command word is a number, not a byte string (R59, R80). -/

namespace Sys2Proof

/-- R10: `bits[lo+n-1:lo]` of `v`. -/
def bits (v lo n : Nat) : Nat := v / 2 ^ lo % 2 ^ n

/-- A 4-bit field of a number, as an index 0 .. 15 (R83: zero-extended, never scaled). -/
def indexField (v lo : Nat) : Fin 16 := Fin.ofNat 16 (bits v lo 4)

/-- The fields of format `C` (R81). -/
structure Fields where
  op : Nat
  rd : Fin 16
  ra : Fin 16
  rb : Fin 16
  rc : Fin 16
  zero : Nat
  deriving DecidableEq, Repr

/-- R81: where each field of the command word stands. -/
def fields (w : Word) : Fields :=
  { op := bits w.toNat 0 8, rd := indexField w.toNat 8, ra := indexField w.toNat 12,
    rb := indexField w.toNat 16, rc := indexField w.toNat 20, zero := bits w.toNat 24 8 }

/-- Why a word names no command (R91).  Each of the three raises ILLEGAL_COMMAND when issued. -/
inductive Reject where
  /-- The `op` value is not in the table. -/
  | unknownOp
  /-- The `zero` field is not 0. -/
  | zeroFieldSet
  /-- A field the opcode does not use is not 0. -/
  | unusedFieldSet
  deriving DecidableEq, Repr

/-- Accept `i` if the unused index fields are all 0 (R82). -/
def acceptIf (unused : List (Fin 16)) (i : Instr) : Except Reject Instr :=
  if unused.all (· == 0) then .ok i else .error .unusedFieldSet

/-- R88, R91: the command a word names, or why it names none.  Total on every word. -/
def decode (w : Word) : Except Reject Instr :=
  let f := fields w
  if f.zero != 0 then .error .zeroFieldSet
  else match f.op with
    | 0x01 => acceptIf [f.rc] (.add f.rd f.ra f.rb)
    | 0x02 => acceptIf [f.rc] (.sub f.rd f.ra f.rb)
    | 0x03 => acceptIf [f.rb, f.rc] (.opp f.rd f.ra)
    | 0x04 => acceptIf [f.rb, f.rc] (.carry f.rd f.ra)
    | 0x05 => acceptIf [f.rb, f.rc] (.relax f.rd f.ra)
    | 0x08 => acceptIf [f.rc] (.carryMul f.rd f.ra f.rb)
    | 0x09 => acceptIf [f.rb, f.rc] (.carrySquare f.rd f.ra)
    | 0x0A => acceptIf [f.rb, f.rc] (.carryScmulConst f.rd f.ra)
    | 0x10 => acceptIf [] (.cmov f.rd f.ra f.rb f.rc)
    | 0x11 => acceptIf [] (.select f.rd f.ra f.rb f.rc)
    | 0x18 => acceptIf [f.rb, f.rc] (.toBytes f.rd f.ra)
    | 0x19 => acceptIf [f.rb, f.rc] (.fromBytes f.rd f.ra)
    | _ => .error .unknownOp

/-- R81: `w = op + rd * 2^8 + ra * 2^12 + rb * 2^16 + rc * 2^20`. -/
def pack (op : Nat) (rd ra rb rc : Fin 16) : Word :=
  BitVec.ofNat 32 (op + rd.val * 2 ^ 8 + ra.val * 2 ^ 12 + rb.val * 2 ^ 16 + rc.val * 2 ^ 20)

/-- The word of a command (R81, R88); an unused field is 0 (R82). -/
def encode : Instr → Word
  | .add d a b => pack 0x01 d a b 0
  | .sub d a b => pack 0x02 d a b 0
  | .opp d a => pack 0x03 d a 0 0
  | .carry d a => pack 0x04 d a 0 0
  | .relax d a => pack 0x05 d a 0 0
  | .carryMul d a b => pack 0x08 d a b 0
  | .carrySquare d a => pack 0x09 d a 0 0
  | .carryScmulConst d a => pack 0x0A d a 0 0
  | .cmov d a b p => pack 0x10 d a b p
  | .select d a b p => pack 0x11 d a b p
  | .toBytes d a => pack 0x18 d a 0 0
  | .fromBytes d a => pack 0x19 d a 0 0

/-- The mnemonic of a command, as spec/opcode_table.json spells it. -/
def Instr.mnemonic : Instr → String
  | .add .. => "add"
  | .sub .. => "sub"
  | .opp .. => "opp"
  | .carry .. => "carry"
  | .relax .. => "relax"
  | .carryMul .. => "carry_mul"
  | .carrySquare .. => "carry_square"
  | .carryScmulConst .. => "carry_scmul_const"
  | .cmov .. => "cmov"
  | .select .. => "select"
  | .toBytes .. => "to_bytes"
  | .fromBytes .. => "from_bytes"

/-- One row of the map of R88: the class of every field (`none`: unused, must be 0) and the pair
`match`, `mask`. -/
structure OpRow where
  mnemonic : String
  op : Nat
  rd : Option RegFile
  ra : Option RegFile
  rb : Option RegFile
  rc : Option RegFile
  pattern : Word
  mask : Word
  deriving DecidableEq, Repr

/-- R88, row by row.  The decoder does not consult it: it is the spec's second description of the same
encodings, and an obligation compares the two. -/
def opcodeTable : List OpRow :=
  [⟨"add", 0x01, some .F, some .F, some .F, none, 0x00000001, 0xFFF000FF⟩,
   ⟨"sub", 0x02, some .F, some .F, some .F, none, 0x00000002, 0xFFF000FF⟩,
   ⟨"opp", 0x03, some .F, some .F, none, none, 0x00000003, 0xFFFF00FF⟩,
   ⟨"carry", 0x04, some .F, some .F, none, none, 0x00000004, 0xFFFF00FF⟩,
   ⟨"relax", 0x05, some .F, some .F, none, none, 0x00000005, 0xFFFF00FF⟩,
   ⟨"carry_mul", 0x08, some .F, some .F, some .F, none, 0x00000008, 0xFFF000FF⟩,
   ⟨"carry_square", 0x09, some .F, some .F, none, none, 0x00000009, 0xFFFF00FF⟩,
   ⟨"carry_scmul_const", 0x0A, some .F, some .F, none, none, 0x0000000A, 0xFFFF00FF⟩,
   ⟨"cmov", 0x10, some .W, some .W, some .W, some .W, 0x00000010, 0xFF0000FF⟩,
   ⟨"select", 0x11, some .F, some .F, some .F, some .W, 0x00000011, 0xFF0000FF⟩,
   ⟨"to_bytes", 0x18, some .B, some .F, none, none, 0x00000018, 0xFFFF00FF⟩,
   ⟨"from_bytes", 0x19, some .F, some .B, none, none, 0x00000019, 0xFFFF00FF⟩]

/-- R88, R89 step 2: the row selects the word. -/
def OpRow.selects (r : OpRow) (w : Word) : Bool := w &&& r.mask == r.pattern

/-- What the decoder reads from a word of the opcode table's numbering: bit 0 is the least significant
bit of the (one) command word, and every bit above `nbits` is 0. -/
def decodeTableWord (nbits w : Nat) : Option Instr :=
  match decode (BitVec.ofNat 32 (w % 2 ^ nbits)) with
  | .ok i => some i
  | .error _ => none

end Sys2Proof
end

