-- ==== Sys2Proof/Machine/Operands.lean ====
section
/-! DEFINITION. The operands of every command: which registers it names, in which file, and the checks an
engine makes on them (spec/30_encoding.md R82, R88, R89 steps 3 and 4, R90). -/

namespace Sys2Proof.Machine

/-- The count of a register file (R89: `N_F`, `N_B`, `N_W`). -/
def countOf (c : Counts) : RegFile → Nat
  | .F => c.nf
  | .B => c.nb
  | .W => c.nw

/-- The register the field `rd` names, with its class (R88). -/
def destOf : Instr → Reg
  | .add d _ _ => ⟨.F, d⟩
  | .sub d _ _ => ⟨.F, d⟩
  | .opp d _ => ⟨.F, d⟩
  | .carry d _ => ⟨.F, d⟩
  | .relax d _ => ⟨.F, d⟩
  | .carryMul d _ _ => ⟨.F, d⟩
  | .carrySquare d _ => ⟨.F, d⟩
  | .carryScmulConst d _ => ⟨.F, d⟩
  | .cmov d _ _ _ => ⟨.W, d⟩
  | .select d _ _ _ => ⟨.F, d⟩
  | .toBytes d _ => ⟨.B, d⟩
  | .fromBytes d _ => ⟨.F, d⟩

/-- The registers the used source fields name, in the order `ra`, `rb`, `rc` (R88). -/
def sourcesOf : Instr → List Reg
  | .add _ a b => [⟨.F, a⟩, ⟨.F, b⟩]
  | .sub _ a b => [⟨.F, a⟩, ⟨.F, b⟩]
  | .opp _ a => [⟨.F, a⟩]
  | .carry _ a => [⟨.F, a⟩]
  | .relax _ a => [⟨.F, a⟩]
  | .carryMul _ a b => [⟨.F, a⟩, ⟨.F, b⟩]
  | .carrySquare _ a => [⟨.F, a⟩]
  | .carryScmulConst _ a => [⟨.F, a⟩]
  | .cmov _ a b p => [⟨.W, a⟩, ⟨.W, b⟩, ⟨.W, p⟩]
  | .select _ a b p => [⟨.F, a⟩, ⟨.F, b⟩, ⟨.W, p⟩]
  | .toBytes _ a => [⟨.F, a⟩]
  | .fromBytes _ a => [⟨.B, a⟩]

/-- Every register a command names (R89 step 3). -/
def regsOf (i : Instr) : List Reg := destOf i :: sourcesOf i

/-- R89 steps 3 and 4, in that order: the fault the form of a decoded command raises, if any.  Only the
command and the counts decide. -/
def formFault (c : Counts) (i : Instr) : Option CommandFault :=
  if (regsOf i).any (fun r => decide (countOf c r.file ≤ r.idx.val)) then some .regRange
  else if (sourcesOf i).any (· == destOf i) then some .aliased
  else none

/-- R89 steps 2 to 4: the fault a command word raises, if any. -/
def wordFault (c : Counts) (w : Word) : Option CommandFault :=
  match decode w with
  | .error _ => some .illegalCommand
  | .ok i => formFault c i

end Sys2Proof.Machine
end

