-- ==== Sys2Proof/Machine/Schedule.lean ====
section
/-! DEFINITION. The limb schedule of GF(2^255 - 19), values and shapes of limb vectors
(spec/10_state.md R22 to R29, spec/41_linear.md R110, spec/00_scope.md R8). -/

namespace Sys2Proof.Machine

/-- R8: the prime. -/
def P : Nat := 2 ^ 255 - 19

/-- R8 `FOLD`: 2^255 is congruent to 19. -/
def foldConst : Nat := 19

/-- R141 `SCMUL_CONST`. -/
def scmulConst : Nat := 121666

/-- R9 `LOOSE_FACTOR`, as spec/90_conflicts.md C1 resolves it. -/
def looseFactor : Nat := 3

/-- R22 `Wd(i)`: the digit width of limb `i`. -/
def wd (i : Fin 10) : Nat := if i.val % 2 = 0 then 26 else 25

/-- R22 `E(i) = ceil(25.5 * i)`: limb `i` has weight `2^E(i)`. -/
def expo (i : Fin 10) : Nat := (51 * i.val + 1) / 2

/-- R22 `M(i) = 2^Wd(i) - 1`. -/
def mask (i : Fin 10) : Nat := 2 ^ wd i - 1

/-- The sum of ten numbers. -/
def total (g : Digits) : Nat := g 0 + g 1 + g 2 + g 3 + g 4 + g 5 + g 6 + g 7 + g 8 + g 9

/-- R23: the value of a limb vector. -/
def eval (x : Digits) : Nat := total fun i => x i * 2 ^ expo i

/-- R24: the digits of p. -/
def pDigit (i : Fin 10) : Nat := (P >>> expo i) &&& mask i

/-- R25 `TIGHT_MAX[i]`. -/
def tightMax (i : Fin 10) : Nat := 2 ^ wd i

/-- R26 `LOOSE_MAX[i]`. -/
def looseMax (i : Fin 10) : Nat := looseFactor * tightMax i

/-- R25. -/
abbrev Tight (x : Digits) : Prop := ∀ i, x i ≤ tightMax i

/-- R26. -/
abbrev Loose (x : Digits) : Prop := ∀ i, x i ≤ looseMax i

/-- R27: the value is below p and every limb is within its mask. -/
abbrev Canonical (x : Digits) : Prop := eval x < P ∧ ∀ i, x i ≤ mask i

/-- R110: twice p's digits. -/
def bias (i : Fin 10) : Nat := 2 * pDigit i

/-- The limbs of a vector, read as numbers. -/
def digits (x : Limbs) : Digits := fun i => x[i].toNat

/-- Ten numbers stored as 32-bit limbs.  Under every command's precondition the numbers fit (R115, R123);
where they would not, no command stores them. -/
def ofDigits (z : Digits) : Limbs := Vector.ofFn fun i => BitVec.ofNat 32 (z i)

/-- The value of a list of bytes, the first least significant. -/
def leList : List Byte → Nat
  | [] => 0
  | b :: bs => b.toNat + 2 ^ 8 * leList bs

/-- R29 `LE(b)`: the integer a buffer encodes. -/
def leValue (b : Buffer) : Nat := leList b.toList

end Sys2Proof.Machine
end

