-- ==== Sys2Proof/Machine/Ops.lean ====
section
/-! DEFINITION. The shared operations: reading and writing the register files, taking a command fault,
reset, and the prologue every command runs (spec/30_encoding.md R89, spec/60_exceptions.md R172, R173). -/

namespace Sys2Proof.Machine

/-- A cell the host or a command has written. -/
def Slot.full {α : Type} (v : α) : Slot α := ⟨v, true⟩

/-- What a read of a cell returns: what was last written, or, where nothing has written it since reset,
the free value `u` (R43, U3). -/
def Slot.read {α : Type} (u : α) (c : Slot α) : α := if c.written then c.value else u

/-- The register counts of this engine (R9): the lengths of its register files. -/
def State.counts (s : State) : Counts := ⟨s.f.length, s.b.length, s.w.length⟩

/-! ### The register files -/

/-- The storage of limb `i` of `F[k]`. -/
def State.limbCell (s : State) (k : FIdx) (i : Fin 10) : Slot Word := (s.f.getD k.val FReg.blank)[i]

/-- The storage of byte `j` of `B[k]`. -/
def State.byteCell (s : State) (k : BIdx) (j : Fin 32) : Slot Byte := (s.b.getD k.val BReg.blank)[j]

/-- The storage of `W[k]`. -/
def State.wordCell (s : State) (k : WIdx) : Slot Word := s.w.getD k.val WReg.blank

/-- A read of limb `i` of `F[k]`. -/
def State.readLimb (s : State) (k : FIdx) (i : Fin 10) : Word :=
  (s.limbCell k i).read (Config.unwrittenLimb s.free k.val i.val)

/-- A read of the whole of `F[k]` (R11). -/
def State.readF (s : State) (k : FIdx) : Limbs := Vector.ofFn fun i => s.readLimb k i

/-- A read of byte `j` of `B[k]`. -/
def State.readByte (s : State) (k : BIdx) (j : Fin 32) : Byte :=
  (s.byteCell k j).read (Config.unwrittenByte s.free k.val j.val)

/-- A read of the whole of `B[k]`. -/
def State.readB (s : State) (k : BIdx) : Buffer := Vector.ofFn fun j => s.readByte k j

/-- A read of `W[k]`. -/
def State.readW (s : State) (k : WIdx) : Word :=
  (s.wordCell k).read (Config.unwrittenWord s.free k.val)

/-- `F[k] <- x`: all ten limbs at once (R11). -/
def State.writeF (s : State) (k : FIdx) (x : Limbs) : State :=
  { s with f := s.f.set k.val (Vector.ofFn fun i => Slot.full x[i]) }

/-- `B[k] <- x`: all 32 bytes at once (R11). -/
def State.writeB (s : State) (k : BIdx) (x : Buffer) : State :=
  { s with b := s.b.set k.val (Vector.ofFn fun j => Slot.full x[j]) }

/-- `W[k] <- v`. -/
def State.writeW (s : State) (k : WIdx) (v : Word) : State :=
  { s with w := s.w.set k.val (Slot.full v) }

/-- One limb written by the host (R58). -/
def State.writeLimb (s : State) (k : FIdx) (i : Fin 10) (v : Word) : State :=
  let old := s.f.getD k.val FReg.blank
  { s with f := s.f.set k.val (Vector.ofFn fun j => if j = i then Slot.full v else old[j]) }

/-- R57: byte `t` of a word on the port, `bits[8t+7:8t]`. -/
def byteOfWord (v : Word) (t : Nat) : Byte := BitVec.ofNat 8 (bits v.toNat (8 * t) 8)

/-- R57: four bytes as a word, the first in the least significant bits. -/
def wordOfBytes (b0 b1 b2 b3 : Byte) : Word :=
  BitVec.ofNat 32 (b0.toNat + b1.toNat * 2 ^ 8 + b2.toNat * 2 ^ 16 + b3.toNat * 2 ^ 24)

/-- R57: byte `4m + t` of a buffer. -/
def byteIndex (m : Fin 8) (t : Fin 4) : Fin 32 := ⟨4 * m.val + t.val, by omega⟩

/-- Word `m` of `B[k]` written by the host: bytes `4m` .. `4m+3` (R57). -/
def State.writeBufWord (s : State) (k : BIdx) (m : Fin 8) (v : Word) : State :=
  let old := s.b.getD k.val BReg.blank
  let new : BReg := Vector.ofFn fun j =>
    if j.val / 4 = m.val then Slot.full (byteOfWord v (j.val % 4)) else old[j]
  { s with b := s.b.set k.val new }

/-- Word `m` of `B[k]` as the host reads it (R57). -/
def State.readBufWord (s : State) (k : BIdx) (m : Fin 8) : Word :=
  wordOfBytes (s.readByte k (byteIndex m 0)) (s.readByte k (byteIndex m 1))
    (s.readByte k (byteIndex m 2)) (s.readByte k (byteIndex m 3))

/-! ### The values of a command whose data precondition failed (R14, R176, U1, U2) -/

/-- Ten UNSPECIFIED limbs. -/
def State.unspecLimbs (s : State) : Limbs := Vector.ofFn fun i => Config.unspecLimb s.free i.val

/-- 32 UNSPECIFIED bytes. -/
def State.unspecBytes (s : State) : Buffer := Vector.ofFn fun j => Config.unspecByte s.free j.val

/-- One UNSPECIFIED word. -/
def State.unspecWord (s : State) : Word := Config.unspecWord s.free

/-! ### Faults and reset -/

/-- R172 `raise Fault(code, w)`: fault entry.  There is no handler, no saved pc and no mode; nothing but
the three control registers changes.  There is no return from a fault (R175): only reset. -/
def State.raiseFault (s : State) (k : CommandFault) (w : Word) : State :=
  { s with err := true, cause := k.code, errcmd := w }

/-- R190: the effect of a reset, hard or soft, on the engine.  The register counts are fixed at build time
(R191), and what is the host's (its operations, its position, what it has read) is not the engine's. -/
def State.engineReset (s : State) : State :=
  { s with f := List.replicate s.f.length FReg.blank, b := List.replicate s.b.length BReg.blank,
           w := List.replicate s.w.length WReg.blank, err := false, cause := 0, errcmd := 0 }

/-- Advance the free counter: the operation that may have drawn free values is over. -/
def State.retire (s : State) : State := { s with free := s.free + 1 }

/-! ### The prologue of every command -/

/-- R89 for a decoded command: 1. discarded while `STATUS.ERR` = 1 (R173); 3. and 4. the checks on its form,
raising the fault of R172 with the command's own word; 5. its effect. -/
def State.perform (s : State) (i : Instr) (effect : State → State) : State :=
  if s.err then s
  else match formFault s.counts i with
    | some k => s.raiseFault k (encode i)
    | none => (effect s).retire

/-- A command is one atomic step (R60, R89) and always ends in a next state. -/
def command (i : Instr) (effect : State → State) (s : State) : Host.Outcome State Fault Refusal :=
  .next (s.perform i effect)

end Sys2Proof.Machine
end

