-- ==== Sys2Proof/Machine/CarryRelax.lean ====
section
/-! DEFINITION. The carry chain, `carry` and `relax` (spec/42_carry_relax.md). -/

namespace Sys2Proof.Machine

/-- R120, pass 1: `s[i]`, limb `i` with the overflow of the limbs below it. -/
def passSum (z : Digits) : Nat → Nat
  | 0 => z 0
  | i + 1 => z (Fin.ofNat 10 (i + 1)) + (passSum z i >>> wd (Fin.ofNat 10 i))

/-- R120 `Chain`: propagate through limbs 0 .. 9, fold the overflow of limb 9 into limb 0 times 19, and
repropagate through limbs 0 and 1.  Limb 2 takes limb 1's last overflow and is not masked again (R125). -/
def chain (z : Digits) : Digits :=
  let r : Digits := fun i => passSum z i.val &&& mask i
  let c9 := passSum z 9 >>> 25
  let u0 := r 0 + foldConst * c9
  let u1 := r 1 + (u0 >>> 26)
  fun i =>
    if i = 0 then u0 &&& 0x3FFFFFF
    else if i = 1 then u1 &&& 0x1FFFFFF
    else if i = 2 then r 2 + (u1 >>> 25)
    else r i

/-- R121 `carry Fd, Fa`. -/
def execCarry (rd ra : FIdx) (s : State) : Host.Outcome State Fault Refusal :=
  command (.carry rd ra) (fun s =>
    let x := digits (s.readF ra)
    s.writeF rd (if Loose x then ofDigits (chain x) else s.unspecLimbs)) s

/-- R122 `relax Fd, Fa`: a copy, bit for bit, of whatever the source holds; it has no precondition. -/
def execRelax (rd ra : FIdx) (s : State) : Host.Outcome State Fault Refusal :=
  command (.relax rd ra) (fun s => s.writeF rd (s.readF ra)) s

end Sys2Proof.Machine
end

