-- ==== Sys2Proof/Machine/Codec.lean ====
section
/-! DEFINITION. `to_bytes` and `from_bytes` (spec/46_codec.md). -/

namespace Sys2Proof.Machine

/-- R155: one conditional subtraction of p. -/
def canonical (x : Digits) : Nat := if P ≤ eval x then eval x - P else eval x

/-- R155: byte `j` is `(C >> (8*j)) & 0xFF`. -/
def packBytes (c : Nat) : Buffer := Vector.ofFn fun j => BitVec.ofNat 8 ((c >>> (8 * j.val)) &&& 0xFF)

/-- R157: the digits of `LE(b) mod 2^255`. -/
def unpackLimbs (b : Buffer) : Digits := fun i => ((leValue b % 2 ^ 255) >>> expo i) &&& mask i

/-- R156: the borrow into limb `i` of the subtraction of p's digits. -/
def borrowInto (x : Digits) : Nat → Nat
  | 0 => 0
  | i + 1 =>
    let j := Fin.ofNat 10 i
    if (x j : Int) - (pDigit j : Int) - (borrowInto x i : Int) < 0 then 1 else 0

/-- R156: the digit the subtraction leaves in limb `i`. -/
def borrowDigit (x : Digits) : Digits := fun i =>
  (((x i : Int) - (pDigit i : Int) - (borrowInto x i.val : Int)) % 2 ^ wd i).toNat

/-- R156: the datapath's choice between the original integer and the difference.  No meaning calls it: the
contract is `canonical`, and an obligation says the two are equal on tight vectors. -/
def canonicalByBorrow (x : Digits) : Nat := if borrowInto x 10 = 1 then eval x else eval (borrowDigit x)

/-- R155 `to_bytes Bd, Fa`. -/
def execToBytes (rd : BIdx) (ra : FIdx) (s : State) : Host.Outcome State Fault Refusal :=
  command (.toBytes rd ra) (fun s =>
    let x := digits (s.readF ra)
    s.writeB rd (if Tight x then packBytes (canonical x) else s.unspecBytes)) s

/-- R157 `from_bytes Fd, Ba`: no precondition on the data. -/
def execFromBytes (rd : FIdx) (ra : BIdx) (s : State) : Host.Outcome State Fault Refusal :=
  command (.fromBytes rd ra) (fun s => s.writeF rd (ofDigits (unpackLimbs (s.readB ra)))) s

end Sys2Proof.Machine
end

