-- ==== Sys2Proof/Machine/Linear.lean ====
section
/-! DEFINITION. `add`, `sub`, `opp` (spec/41_linear.md): ten independent lanes, no carry between them. -/

namespace Sys2Proof.Machine

/-- R111. -/
def addLimbs (x y : Digits) : Digits := fun i => x i + y i

/-- R112: `(BIAS[i] + x[i]) - y[i]`, which is never negative for tight operands. -/
def subLimbs (x y : Digits) : Digits := fun i => (bias i + x i) - y i

/-- R113: `BIAS[i] - x[i]`. -/
def oppLimbs (x : Digits) : Digits := fun i => bias i - x i

/-- R111 `add Fd, Fa, Fb`. -/
def execAdd (rd ra rb : FIdx) (s : State) : Host.Outcome State Fault Refusal :=
  command (.add rd ra rb) (fun s =>
    let x := digits (s.readF ra)
    let y := digits (s.readF rb)
    s.writeF rd (if Tight x ∧ Tight y then ofDigits (addLimbs x y) else s.unspecLimbs)) s

/-- R112 `sub Fd, Fa, Fb`. -/
def execSub (rd ra rb : FIdx) (s : State) : Host.Outcome State Fault Refusal :=
  command (.sub rd ra rb) (fun s =>
    let x := digits (s.readF ra)
    let y := digits (s.readF rb)
    s.writeF rd (if Tight x ∧ Tight y then ofDigits (subLimbs x y) else s.unspecLimbs)) s

/-- R113 `opp Fd, Fa`. -/
def execOpp (rd ra : FIdx) (s : State) : Host.Outcome State Fault Refusal :=
  command (.opp rd ra) (fun s =>
    let x := digits (s.readF ra)
    s.writeF rd (if Tight x then ofDigits (oppLimbs x) else s.unspecLimbs)) s

end Sys2Proof.Machine
end

