-- ==== Sys2Proof/Machine/Multiply.lean ====
section
/-! DEFINITION. `carry_mul`, `carry_square` (spec/43_multiply_square.md) and `carry_scmul_const`
(spec/44_scmul.md).  Accumulators are exact naturals (R134, U12). -/

namespace Sys2Proof.Machine

/-- R130 `f(i, j)`: 2 if both indices are odd, times 19 if the pair wraps. -/
def factor (i j : Nat) : Nat :=
  (if i % 2 = 1 ∧ j % 2 = 1 then 2 else 1) * (if 10 ≤ i + j then foldConst else 1)

/-- R130 `Acc(a, b)[k]`: the ten terms with `(i + j) mod 10 = k`, each index `i` with its one partner
`j = (k - i) mod 10`. -/
def acc (a b : Digits) : Digits := fun k =>
  total fun i => factor i.val (k - i).val * a i * b (k - i)

/-- R140: each limb times 121666. -/
def scmulLimbs (x : Digits) : Digits := fun i => scmulConst * x i

/-- R131 `carry_mul Fd, Fa, Fb`. -/
def execCarryMul (rd ra rb : FIdx) (s : State) : Host.Outcome State Fault Refusal :=
  command (.carryMul rd ra rb) (fun s =>
    let x := digits (s.readF ra)
    let y := digits (s.readF rb)
    s.writeF rd (if Loose x ∧ Loose y then ofDigits (chain (acc x y)) else s.unspecLimbs)) s

/-- R132 `carry_square Fd, Fa`. -/
def execCarrySquare (rd ra : FIdx) (s : State) : Host.Outcome State Fault Refusal :=
  command (.carrySquare rd ra) (fun s =>
    let x := digits (s.readF ra)
    s.writeF rd (if Loose x then ofDigits (chain (acc x x)) else s.unspecLimbs)) s

/-- R140 `carry_scmul_const Fd, Fa`. -/
def execCarryScmulConst (rd ra : FIdx) (s : State) : Host.Outcome State Fault Refusal :=
  command (.carryScmulConst rd ra) (fun s =>
    let x := digits (s.readF ra)
    s.writeF rd (if Loose x then ofDigits (chain (scmulLimbs x)) else s.unspecLimbs)) s

end Sys2Proof.Machine
end

