-- ==== Sys2Proof/Machine/Select.lean ====
section
/-! DEFINITION. `cmov` and `select` (spec/45_select.md). -/

namespace Sys2Proof.Machine

/-- R148: the mask of a predicate, `(2^32 - c) mod 2^32`. -/
def selMask (c : Word) : Word := BitVec.ofNat 32 ((2 ^ 32 - c.toNat) % 2 ^ 32)

/-- R148 `Sel(c, u, v)`, for `c` in {0, 1}. -/
def sel (c u v : Word) : Word := (v &&& selMask c) ||| (u &&& ~~~ selMask c)

/-- R145, R146: the predicate word, as a whole, is 0 or 1. -/
abbrev Predicate (c : Word) : Prop := c = 0 ∨ c = 1

/-- R145 `cmov Wd, Wc, Wa, Wb`. -/
def execCmov (rd ra rb rc : WIdx) (s : State) : Host.Outcome State Fault Refusal :=
  command (.cmov rd ra rb rc) (fun s =>
    let p := s.readW rc
    s.writeW rd (if Predicate p then sel p (s.readW ra) (s.readW rb) else s.unspecWord)) s

/-- R146 `select Fd, Wc, Fa, Fb`: ten lanes, one predicate (R149). -/
def execSelect (rd ra rb : FIdx) (rc : WIdx) (s : State) : Host.Outcome State Fault Refusal :=
  command (.select rd ra rb rc) (fun s =>
    let p := s.readW rc
    let x := s.readF ra
    let y := s.readF rb
    s.writeF rd (if Predicate p then Vector.ofFn fun i => sel p x[i] y[i] else s.unspecLimbs)) s

end Sys2Proof.Machine
end

