-- ==== Sys2Proof/Machine/Dispatch.lean ====
section
/-! DEFINITION. One arm per command (spec/30_encoding.md R88). -/

namespace Sys2Proof.Machine

/-- What a decoded command does. -/
def exec (i : Instr) (s : State) : Host.Outcome State Fault Refusal :=
  match i with
  | .add rd ra rb => Sys2Proof.Machine.execAdd rd ra rb s
  | .sub rd ra rb => Sys2Proof.Machine.execSub rd ra rb s
  | .opp rd ra => Sys2Proof.Machine.execOpp rd ra s
  | .carry rd ra => Sys2Proof.Machine.execCarry rd ra s
  | .relax rd ra => Sys2Proof.Machine.execRelax rd ra s
  | .carryMul rd ra rb => Sys2Proof.Machine.execCarryMul rd ra rb s
  | .carrySquare rd ra => Sys2Proof.Machine.execCarrySquare rd ra s
  | .carryScmulConst rd ra => Sys2Proof.Machine.execCarryScmulConst rd ra s
  | .cmov rd ra rb rc => Sys2Proof.Machine.execCmov rd ra rb rc s
  | .select rd ra rb rc => Sys2Proof.Machine.execSelect rd ra rb rc s
  | .toBytes rd ra => Sys2Proof.Machine.execToBytes rd ra s
  | .fromBytes rd ra => Sys2Proof.Machine.execFromBytes rd ra s

end Sys2Proof.Machine
end

