-- ==== Sys2Proof/Machine/Window.lean ====
section
/-! DEFINITION. The host window (spec/20_memory.md): what each offset is, issuing a command, and the host's
operations.  The window is a view of the registers; the engine has no memory behind it (R50). -/

namespace Sys2Proof.Machine

/-- What a word of the window is (R51). -/
inductive Port where
  | cmd
  | status
  | cause
  | errcmd
  | ctrl
  | word (k : WIdx)
  | bufWord (k : BIdx) (m : Fin 8)
  | limb (k : FIdx) (i : Fin 10)
  | reserved
  deriving DecidableEq, Repr

/-- The byte offset of a word index (R55: offset bits 10:2). -/
def byteOffset (off : Offset) : Nat := 4 * off.toNat

/-- The word index of a byte offset that is a multiple of 4. -/
def offsetAt (byteOff : Nat) : Offset := BitVec.ofNat 9 (byteOff / 4)

/-- R33: the control and status registers, below offset 0x040. -/
def controlPort (n : Nat) : Port :=
  if n = 0x000 then .cmd
  else if n = 0x004 then .status
  else if n = 0x008 then .cause
  else if n = 0x00C then .errcmd
  else if n = 0x010 then .ctrl
  else .reserved

/-- R56: the word registers; `n` counts from 0x040. -/
def wordPort (c : Counts) (n : Nat) : Port :=
  if n / 4 < c.nw then .word (Fin.ofNat 16 (n / 4)) else .reserved

/-- R57: the byte buffers; `n` counts from 0x100. -/
def bufPort (c : Counts) (n : Nat) : Port :=
  if n / 32 < c.nb then .bufWord (Fin.ofNat 16 (n / 32)) (Fin.ofNat 8 (n % 32 / 4)) else .reserved

/-- R58: the field-element registers; `n` counts from 0x400.  Only ten of the sixteen words of a slot are
limbs. -/
def limbPort (c : Counts) (n : Nat) : Port :=
  if n / 64 < c.nf ∧ n % 64 < 40 then .limb (Fin.ofNat 16 (n / 64)) (Fin.ofNat 10 (n % 64 / 4))
  else .reserved

/-- R51, R54: the map of the window.  A slot whose index is not below its count is reserved. -/
def portOf (c : Counts) (off : Offset) : Port :=
  if byteOffset off < 0x040 then controlPort (byteOffset off)
  else if byteOffset off < 0x080 then wordPort c (byteOffset off - 0x040)
  else if byteOffset off < 0x100 then .reserved
  else if byteOffset off < 0x300 then bufPort c (byteOffset off - 0x100)
  else if byteOffset off < 0x400 then .reserved
  else limbPort c (byteOffset off - 0x400)

/-- R34 to R38, R51, R56 to R58: the byte offset of a port that is not reserved. -/
def offsetOfPort : Port → Nat
  | .cmd => 0x000
  | .status => 0x004
  | .cause => 0x008
  | .errcmd => 0x00C
  | .ctrl => 0x010
  | .word k => 0x040 + 4 * k.val
  | .bufWord k m => 0x100 + 32 * k.val + 4 * m.val
  | .limb k i => 0x400 + 64 * k.val + 4 * i.val
  | .reserved => 0x014

/-- R50, R55, U7: the word of the window a platform address reaches, if it is an aligned address inside it.
What a platform bridge does with any other access is outside the engine. -/
def platformOffset (addr : Nat) : Option Offset :=
  if Config.feeBase ≤ addr ∧ addr < Config.feeBase + 2048 ∧ (addr - Config.feeBase) % 4 = 0 then
    some (offsetAt (addr - Config.feeBase))
  else none

/-- R89 `IssueCommand(w)`: discarded while `ERR` is 1; ILLEGAL_COMMAND if no row matches; else the command. -/
def issueCommand (w : Word) (s : State) : Host.Outcome State Fault Refusal :=
  if s.err then .next s
  else match decode w with
    | .error _ => .next (s.raiseFault .illegalCommand w)
    | .ok i => exec i s

/-- R52: exactly one of issuing a command, a reset, a data register write, nothing. -/
def hostWrite (off : Offset) (v : Word) (s : State) : Host.Outcome State Fault Refusal :=
  match portOf s.counts off with
  | .cmd => issueCommand v s
  | .ctrl => .next (if v.getLsbD 0 then s.engineReset else s)
  | .word k => .next (s.writeW k v)
  | .bufWord k m => .next (s.writeBufWord k m v)
  | .limb k i => .next (s.writeLimb k i v)
  | .status => .next s
  | .cause => .next s
  | .errcmd => .next s
  | .reserved => .next s

/-- R53, R54: the value a read of the window returns. -/
def State.windowRead (s : State) (off : Offset) : Word :=
  match portOf s.counts off with
  | .cmd => 0
  | .ctrl => 0
  | .reserved => 0
  | .status => s.statusWord
  | .cause => s.causeWord
  | .errcmd => s.errcmdWord
  | .word k => s.readW k
  | .bufWord k m => s.readBufWord k m
  | .limb k i => s.readLimb k i

/-- The host receives a value it read (R53). -/
def State.pushRead (s : State) (v : Word) : State := { s with reads := v :: s.reads, free := s.free + 1 }

/-- One host operation (R12, R20), or the hard reset input (R190). -/
def performOp (op : HostOp) (s : State) : Host.Outcome State Fault Refusal :=
  match op with
  | .write off v => hostWrite off v s
  | .read off => .next (s.pushRead (s.windowRead off))
  | .hardReset => .next s.engineReset

/-- The host takes its next operation: its list is one shorter and its position one further (R31). -/
def State.take (s : State) (rest : List HostOp) : State := { s with ops := rest, pc := s.pc + 1 }

/-- One step: the host's next operation in full, before the one after it (R60); with nothing to do the
engine waits (R186, R190). -/
def stepOp (s : State) : Host.Outcome State Fault Refusal :=
  match s.ops with
  | [] => .next s
  | op :: rest => performOp op (s.take rest)

/-- `s` with the host about to write `w` to `CMD`, before the rest of its list. -/
def State.withCommand (s : State) (w : Word) : State := { s with ops := .write (offsetAt 0x000) w :: s.ops }

end Sys2Proof.Machine
end

