-- ==== Sys2Proof/Machine/Step.lean ====
section
/-! DEFINITION. One step of the machine (spec/10_state.md R20, R31; spec/20_memory.md R60). -/

namespace Sys2Proof.Machine

/-- One step: the host's next operation, or nothing if it has none. -/
def step (s : State) : Host.Outcome State Fault Refusal := stepOp s

/-- `s` with the command word `w` (its bits above `nbits` zero) as what the host writes to `CMD` next: the
engine fetches nothing, so this is where a step's command comes from (R31). -/
def State.withFetchWord (s : State) (nbits w : Nat) : State :=
  s.withCommand (BitVec.ofNat 32 (w % 2 ^ nbits))

end Sys2Proof.Machine
end

