-- ==== Sys2Proof/Machine/Pseudo.lean ====
section
/-! DEFINITION. The assembler's view (spec/30_encoding.md R94, R95): the operand order of a command line,
and the pseudo-instructions as lists of host operations. -/

namespace Sys2Proof.Machine

/-- R94: the operands of a command line, in the order written: the destination, then the predicate where
there is one, then the sources. -/
def asmOperands : Instr → List Reg
  | .cmov d a b p => [⟨.W, d⟩, ⟨.W, p⟩, ⟨.W, a⟩, ⟨.W, b⟩]
  | .select d a b p => [⟨.F, d⟩, ⟨.W, p⟩, ⟨.F, a⟩, ⟨.F, b⟩]
  | .add d a b => regsOf (.add d a b)
  | .sub d a b => regsOf (.sub d a b)
  | .opp d a => regsOf (.opp d a)
  | .carry d a => regsOf (.carry d a)
  | .relax d a => regsOf (.relax d a)
  | .carryMul d a b => regsOf (.carryMul d a b)
  | .carrySquare d a => regsOf (.carrySquare d a)
  | .carryScmulConst d a => regsOf (.carryScmulConst d a)
  | .toBytes d a => regsOf (.toBytes d a)
  | .fromBytes d a => regsOf (.fromBytes d a)

/-- R94: the name of a register. -/
def regName (r : Reg) : String :=
  (match r.file with | .F => "F" | .B => "B" | .W => "W") ++ toString r.idx.val

/-- R94: the text of a command line. -/
def asmLine (i : Instr) : String :=
  i.mnemonic ++ " " ++ ", ".intercalate ((asmOperands i).map regName)

/-- R94: a command line stands for `HostWrite(0x000, word)`. -/
def issue (i : Instr) : List HostOp := [.write (offsetAt 0x000) (encode i)]

/-- R95 `wrw Wk, v`. -/
def wrw (k : WIdx) (v : Word) : List HostOp := [.write (offsetAt (0x040 + 4 * k.val)) v]

/-- R95 `wrb Bk, h`. -/
def wrb (k : BIdx) (h : Buffer) : List HostOp :=
  (List.finRange 8).map fun m => .write (offsetAt (0x100 + 32 * k.val + 4 * m.val))
    (wordOfBytes h[byteIndex m 0] h[byteIndex m 1] h[byteIndex m 2] h[byteIndex m 3])

/-- R95 `wrf Fk, l`. -/
def wrf (k : FIdx) (l : Limbs) : List HostOp :=
  (List.finRange 10).map fun i => .write (offsetAt (0x400 + 64 * k.val + 4 * i.val)) l[i]

/-- R95 `rdw Wk`. -/
def rdw (k : WIdx) : List HostOp := [.read (offsetAt (0x040 + 4 * k.val))]

/-- R95 `rdb Bk`. -/
def rdb (k : BIdx) : List HostOp :=
  (List.finRange 8).map fun m => .read (offsetAt (0x100 + 32 * k.val + 4 * m.val))

/-- R95 `rdf Fk`. -/
def rdf (k : FIdx) : List HostOp :=
  (List.finRange 10).map fun i => .read (offsetAt (0x400 + 64 * k.val + 4 * i.val))

/-- R95 `rds`. -/
def rds : List HostOp := [.read (offsetAt 0x004), .read (offsetAt 0x008), .read (offsetAt 0x00C)]

/-- R95 `srst`. -/
def srst : List HostOp := [.write (offsetAt 0x010) 1]

/-- R95 `raw v`. -/
def raw (v : Word) : List HostOp := [.write (offsetAt 0x000) v]

/-- R95 `carry_add Fd, Ft, Fa, Fb`. -/
def carryAdd (d t a b : FIdx) : List HostOp := issue (.add t a b) ++ issue (.carry d t)

/-- R95 `carry_sub Fd, Ft, Fa, Fb`. -/
def carrySub (d t a b : FIdx) : List HostOp := issue (.sub t a b) ++ issue (.carry d t)

/-- R95 `carry_opp Fd, Ft, Fa`. -/
def carryOpp (d t a : FIdx) : List HostOp := issue (.opp t a) ++ issue (.carry d t)

end Sys2Proof.Machine
end

