-- ==== Sys2Proof/Safety.lean ====
section
/-! DEFINITION. The terms claims are stated in: which states are sound, when a command's data meet its
precondition, and what a command may change. -/

namespace Sys2Proof.Machine

/-- R173: a faulted state is never the final state of a successful run. -/
abbrev State.Running (s : State) : Prop := s.err = false

/-! ### Storage -/

/-- Whether every cell of a register has been written since reset (R43, R191, R194). -/
def State.written (s : State) (r : Reg) : Bool :=
  match r.file with
  | .F => (s.f.getD r.idx.val FReg.blank).toList.all (·.written)
  | .B => (s.b.getD r.idx.val BReg.blank).toList.all (·.written)
  | .W => (s.w.getD r.idx.val WReg.blank).written

/-- No cell of any data register has been written since reset (R42: every one is UNSPECIFIED). -/
abbrev State.Unwritten (s : State) : Prop :=
  (∀ r ∈ s.f, ∀ i : Fin 10, r[i].written = false) ∧
  (∀ r ∈ s.b, ∀ j : Fin 32, r[j].written = false) ∧
  (∀ r ∈ s.w, r.written = false)

/-- A cell nothing has written holds 0, so that equal machines are equal data (the model's own form). -/
abbrev Slot.Canon {α : Type} [Zero α] (c : Slot α) : Prop := c.written = false → c.value = 0

/-! ### The invariant -/

/-- What holds of every state a run reaches.  `counts`: R9.  `clear`: `CAUSE` and `ERRCMD` are 0 while
`ERR` is 0 (R36, R37).  `fault`: while `ERR` is 1, `ERRCMD` is a word that raises a command fault on this
engine, and `CAUSE` is that fault's code (R171, R172, R173).  The last three are the storage form. -/
structure State.Inv (s : State) : Prop where
  counts : s.counts.Legal
  clear : s.err = false → s.cause = 0 ∧ s.errcmd = 0
  fault : s.err = true → ∃ k, wordFault s.counts s.errcmd = some k ∧ s.cause = k.code
  blankF : ∀ r ∈ s.f, ∀ i : Fin 10, Slot.Canon r[i]
  blankB : ∀ r ∈ s.b, ∀ j : Fin 32, Slot.Canon r[j]
  blankW : ∀ r ∈ s.w, Slot.Canon r

/-! ### Commands -/

/-- The data precondition of a command (R14, R193): the shapes and predicates its rule asks for. -/
def DataOk (s : State) : Instr → Prop
  | .add _ a b => Tight (digits (s.readF a)) ∧ Tight (digits (s.readF b))
  | .sub _ a b => Tight (digits (s.readF a)) ∧ Tight (digits (s.readF b))
  | .opp _ a => Tight (digits (s.readF a))
  | .carry _ a => Loose (digits (s.readF a))
  | .relax _ _ => True
  | .carryMul _ a b => Loose (digits (s.readF a)) ∧ Loose (digits (s.readF b))
  | .carrySquare _ a => Loose (digits (s.readF a))
  | .carryScmulConst _ a => Loose (digits (s.readF a))
  | .cmov _ _ _ p => Predicate (s.readW p)
  | .select _ _ _ p => Predicate (s.readW p)
  | .toBytes _ a => Tight (digits (s.readF a))
  | .fromBytes _ _ => True

/-- Two states in which a register reads the same. -/
def SameRead (s t : State) (r : Reg) : Prop :=
  match r.file with
  | .F => s.readF r.idx = t.readF r.idx
  | .B => s.readB r.idx = t.readB r.idx
  | .W => s.readW r.idx = t.readW r.idx

/-- Two states with the same control registers and the same host. -/
structure SameControl (s t : State) : Prop where
  err : t.err = s.err
  cause : t.cause = s.cause
  errcmd : t.errcmd = s.errcmd
  ops : t.ops = s.ops
  pc : t.pc = s.pc
  reads : t.reads = s.reads

/-- From `s` to `t` the storage of no data register changes but that of `r`, and nothing else changes
(the model's own counter apart). -/
structure OnlyChanges (r : Reg) (s t : State) : Prop where
  control : SameControl s t
  counts : t.counts = s.counts
  f : ∀ k : Nat, ¬(r.file = .F ∧ r.idx.val = k) → t.f[k]? = s.f[k]?
  b : ∀ k : Nat, ¬(r.file = .B ∧ r.idx.val = k) → t.b[k]? = s.b[k]?
  w : ∀ k : Nat, ¬(r.file = .W ∧ r.idx.val = k) → t.w[k]? = s.w[k]?

/-- R89 steps 3 and 4 as a command's rule lists them: REG_RANGE, else ALIAS, each with the command's word. -/
def FormChecked (i : Instr) (s : State) : Prop :=
  (i.inRange s.counts = false → exec i s = .next (s.raiseFault .regRange (encode i))) ∧
  (i.inRange s.counts = true → i.noAlias = false → exec i s = .next (s.raiseFault .aliased (encode i)))

/-- The command completes with its own effect: a next state in which nothing but the destination has
changed, the destination is written whole, and `post` holds. -/
def Retires (i : Instr) (s : State) (post : State → Prop) : Prop :=
  ∃ t, exec i s = .next t ∧ OnlyChanges (destOf i) s t ∧ t.written (destOf i) = true ∧ post t

/-- A port whose register exists on an engine with the counts `c`, and that is not reserved (R51). -/
def Port.present (c : Counts) : Port → Prop
  | .word k => k.val < c.nw
  | .bufWord k _ => k.val < c.nb
  | .limb k _ => k.val < c.nf
  | .reserved => False
  | .cmd => True
  | .status => True
  | .cause => True
  | .errcmd => True
  | .ctrl => True

/-- The data register a host write of a port stores to, if any (R52). -/
def Port.reg : Port → Option Reg
  | .word k => some ⟨.W, k⟩
  | .bufWord k _ => some ⟨.B, k⟩
  | .limb k _ => some ⟨.F, k⟩
  | .cmd => none
  | .status => none
  | .cause => none
  | .errcmd => none
  | .ctrl => none
  | .reserved => none

/-! ### Command words -/

/-- The registers a row's used fields name in a word, `rd` first (R82, R88). -/
def namedRegs (r : OpRow) (w : Word) : List Reg :=
  let f := fields w
  [(r.rd, f.rd), (r.ra, f.ra), (r.rb, f.rb), (r.rc, f.rc)].filterMap fun p => p.1.map fun c => ⟨c, p.2⟩

/-- R88: the mask a row's classes ask for: `op`, `zero`, and every unused field. -/
def maskOf (r : OpRow) : Word :=
  0xFF0000FF ||| (if r.rd.isNone then 0x00000F00 else 0) ||| (if r.ra.isNone then 0x0000F000 else 0) |||
    (if r.rb.isNone then 0x000F0000 else 0) ||| (if r.rc.isNone then 0x00F00000 else 0)

/-- R171, R89 steps 2 to 4, each check judged on the word alone and not on the ones before it: the word
matches no row; a used field of its opcode is at or above its count; its destination is a source.  A word
with an unused or `zero` field that is not 0 can fail all three at once (R174). -/
def FaultApplies (c : Counts) (w : Word) : CommandFault → Prop
  | .illegalCommand => ∀ r ∈ opcodeTable, r.selects w = false
  | .regRange => ∃ r ∈ opcodeTable, r.op = (fields w).op ∧ ∃ q ∈ namedRegs r w, countOf c q.file ≤ q.idx.val
  | .aliased => ∃ r ∈ opcodeTable, r.op = (fields w).op ∧ ∃ q ∈ (namedRegs r w).tail, (namedRegs r w).head? = some q

/-- A host operation that resets the engine (R190). -/
def HostOp.resets (c : Counts) : HostOp → Bool
  | .write off v => portOf c off == .ctrl && v.getLsbD 0
  | .read _ => false
  | .hardReset => true

/-- A host operation that issues a command. -/
def HostOp.issues (c : Counts) : HostOp → Bool
  | .write off _ => portOf c off == .cmd
  | .read _ => false
  | .hardReset => false

end Sys2Proof.Machine
end

