-- ==== Sys2Proof/Certificates/Slice0/Obligations.lean ====
section
/-! DEFINITION. The statements about the model.  A statement about a free value holds for every value of it:
none names one. -/

open Sys2Proof Sys2Proof.Machine

/-! ### Command words -/

/-- Decoding the word of a command gives the command back, for every command and every operand
(spec/30_encoding.md R81, R88). -/
def Obligations.DecodeInvertsEncode : Prop := ∀ i : Instr, decode (encode i) = .ok i

/-- The word a command was decoded from is the word it encodes to: no other word names it
(R81, R82, R91). -/
def Obligations.EncodeInvertsDecode : Prop := ∀ (w : Word) (i : Instr), decode w = .ok i → encode i = w

/-- R88: a row of the opcode map selects exactly the words that decode to its command, with the registers
its classes name; no two rows select one word; each mask covers `op`, `zero` and every unused field. -/
def Obligations.TableRowsSelectTheDecodedWords : Prop :=
  (∀ r ∈ opcodeTable, ∀ w : Word,
    r.selects w = true ↔
      ∃ i, decode w = .ok i ∧ i.mnemonic = r.mnemonic ∧ regsOf i = namedRegs r w) ∧
  (∀ r ∈ opcodeTable, ∀ q ∈ opcodeTable, ∀ w : Word, r.selects w = true → q.selects w = true → r = q) ∧
  (∀ r ∈ opcodeTable, r.mask = maskOf r ∧ r.pattern = BitVec.ofNat 32 r.op)

/-- R91: a word matches no row exactly when its `op` is not in the table, its `zero` field is not 0, or a
field its opcode does not use is not 0; such a word, issued to an engine that has not faulted, raises
ILLEGAL_COMMAND; the all-zero and the all-ones word are such words; every other word is one of the twelve
commands. -/
def Obligations.IllegalWordsFault : Prop :=
  (∀ w : Word, (∀ r ∈ opcodeTable, r.selects w = false) ↔
    ((fields w).zero ≠ 0 ∨ (fields w).op ∉ opcodeTable.map (·.op) ∨
      ∃ r ∈ opcodeTable, r.op = (fields w).op ∧
        ((r.rb = none ∧ (fields w).rb ≠ 0) ∨ (r.rc = none ∧ (fields w).rc ≠ 0)))) ∧
  (∀ (s : State) (w : Word), s.err = false → (∀ r ∈ opcodeTable, r.selects w = false) →
    hostWrite (offsetAt 0x000) w s = .next (s.raiseFault .illegalCommand w)) ∧
  CommandFault.illegalCommand.code = 1 ∧
  (∀ w : Word, (∀ r ∈ opcodeTable, r.selects w = false) ∨ ∃ i, decode w = .ok i) ∧
  (∀ r ∈ opcodeTable, r.selects 0x00000000 = false ∧ r.selects 0xFFFFFFFF = false)

/-- The twelve example words of R94 decode to the commands they are examples of. -/
def Obligations.ExampleWordsDecode : Prop :=
  decode 0x00010201 = .ok (.add 2 0 1) ∧ decode 0x00010202 = .ok (.sub 2 0 1) ∧
  decode 0x00000103 = .ok (.opp 1 0) ∧ decode 0x00002304 = .ok (.carry 3 2) ∧
  decode 0x00000105 = .ok (.relax 1 0) ∧ decode 0x00010208 = .ok (.carryMul 2 0 1) ∧
  decode 0x00000109 = .ok (.carrySquare 1 0) ∧ decode 0x0000010A = .ok (.carryScmulConst 1 0) ∧
  decode 0x00021310 = .ok (.cmov 3 1 2 0) ∧ decode 0x00010211 = .ok (.select 2 0 1 0) ∧
  decode 0x00002018 = .ok (.toBytes 0 2) ∧ decode 0x00000019 = .ok (.fromBytes 0 0)

/-! ### Issue -/

/-- A step whose host operation writes the word of command `i` to `CMD` is `exec i` at the state in which the
host has moved past that operation: its list one shorter, its position one further (R31, R34, R60). -/
def Obligations.StepExecutesTheWrittenCommand : Prop :=
  ∀ (s : State) (w : Word) (i : Instr) (rest : List HostOp),
    s.ops = .write (offsetAt 0x000) w :: rest → decode w = .ok i →
    step s = exec i { s with ops := rest, pc := s.pc + 1 }

/-- R89: writing `w` to `CMD` runs the five steps of `IssueCommand`, said over the rows of the opcode map:
discarded while `ERR` is 1; 1 ILLEGAL_COMMAND if no row selects `w`; 2 REG_RANGE if a used field is at or
above its count; 3 ALIAS if a source is the destination; otherwise the command is performed. -/
def Obligations.IssueRunsTheFiveSteps : Prop :=
  (CommandFault.illegalCommand.code = 1 ∧ CommandFault.regRange.code = 2 ∧ CommandFault.aliased.code = 3) ∧
  ∀ (s : State) (w : Word),
    (s.err = true → hostWrite (offsetAt 0x000) w s = .next s) ∧
    (s.err = false →
      ((∀ r ∈ opcodeTable, r.selects w = false) →
        hostWrite (offsetAt 0x000) w s = .next (s.raiseFault .illegalCommand w)) ∧
      ∀ r ∈ opcodeTable, r.selects w = true →
        ((∃ q ∈ namedRegs r w, countOf s.counts q.file ≤ q.idx.val) →
          hostWrite (offsetAt 0x000) w s = .next (s.raiseFault .regRange w)) ∧
        ((∀ q ∈ namedRegs r w, q.idx.val < countOf s.counts q.file) →
          ((∃ q ∈ (namedRegs r w).tail, (namedRegs r w).head? = some q) →
            hostWrite (offsetAt 0x000) w s = .next (s.raiseFault .aliased w)) ∧
          ((∀ q ∈ (namedRegs r w).tail, (namedRegs r w).head? ≠ some q) →
            ∃ i t, decode w = .ok i ∧ exec i s = .next t ∧ hostWrite (offsetAt 0x000) w s = .next t ∧
              OnlyChanges (destOf i) s t)))

/-- R171: the three faults, their codes and the words that raise them: no row selects the word; an index it
uses is not below its count; in range, its destination is a source.  The codec cannot raise ALIAS. -/
def Obligations.FaultCausesAreTheTable : Prop :=
  (CommandFault.illegalCommand.code = 1 ∧ CommandFault.regRange.code = 2 ∧ CommandFault.aliased.code = 3) ∧
  ∀ (c : Counts) (w : Word),
    (wordFault c w = some .illegalCommand ↔ ∀ r ∈ opcodeTable, r.selects w = false) ∧
    (wordFault c w = some .regRange ↔
      ∃ i, decode w = .ok i ∧ ∃ q ∈ regsOf i, countOf c q.file ≤ q.idx.val) ∧
    (wordFault c w = some .aliased ↔
      ∃ i, decode w = .ok i ∧ (∀ q ∈ regsOf i, q.idx.val < countOf c q.file) ∧ destOf i ∈ sourcesOf i) ∧
    (∀ (k : BIdx) (n : FIdx), wordFault c (encode (.toBytes k n)) ≠ some .aliased ∧
      wordFault c (encode (.fromBytes n k)) ≠ some .aliased)

/-- R172: a command fault sets `STATUS.ERR`, `CAUSE` and `ERRCMD`, as the host reads them too, and nothing
else. -/
def Obligations.FaultEntryIsPrecise : Prop :=
  ∀ (s : State) (w : Word) (k : CommandFault), s.err = false → wordFault s.counts w = some k →
    ∃ t, hostWrite (offsetAt 0x000) w s = .next t ∧
      t.err = true ∧ t.cause = k.code ∧ t.errcmd = w ∧
      t.f = s.f ∧ t.b = s.b ∧ t.w = s.w ∧ t.ops = s.ops ∧ t.pc = s.pc ∧ t.reads = s.reads ∧
      t.windowRead (offsetAt 0x004) = 1 ∧ t.windowRead (offsetAt 0x008) = k.code.zeroExtend 32 ∧
      t.windowRead (offsetAt 0x00C) = w

/-- R174: a faulting command reports one cause, the lowest-numbered that applies, each check judged on its own
(`FaultApplies`), and a word to which none applies raises none; and the rule's own examples. -/
def Obligations.LowestCauseIsReported : Prop :=
  (∀ (c : Counts) (w : Word) (k : CommandFault), wordFault c w = some k ↔
    FaultApplies c w k ∧ ∀ j, FaultApplies c w j → k.code.toNat ≤ j.code.toNat) ∧
  (∀ (s : State) (w : Word) (k : CommandFault), s.err = false → FaultApplies s.counts w k →
    (∀ j, FaultApplies s.counts w j → k.code.toNat ≤ j.code.toNat) →
    hostWrite (offsetAt 0x000) w s = .next (s.raiseFault k w)) ∧
  (∀ (c : Counts) (w : Word), (fields w).zero ≠ 0 → wordFault c w = some .illegalCommand) ∧
  (∀ c, wordFault c 0x01000201 = some .illegalCommand) ∧
  (∀ c : Counts, c.nf = 2 → wordFault c (encode (.add 2 2 2)) = some .regRange) ∧
  (∀ c : Counts, 3 ≤ c.nf → wordFault c (encode (.add 2 2 2)) = some .aliased)

/-- R173: while `ERR` is 1 a `CMD` write changes nothing; host reads and writes of data registers work as
without the fault; a step leaves the halted state only if its operation is a reset, and otherwise keeps
`CAUSE` and `ERRCMD`. -/
def Obligations.HaltedUntilReset : Prop :=
  ∀ s : State, s.err = true →
    (∀ w, hostWrite (offsetAt 0x000) w s = .next s) ∧
    (∀ off v t, (portOf s.counts off).reg ≠ none → hostWrite off v s = .next t →
      hostWrite off v { s with err := false } = .next { t with err := false }) ∧
    (∀ off, (portOf s.counts off).reg ≠ none → s.windowRead off = ({ s with err := false } : State).windowRead off) ∧
    (∀ op rest t, s.ops = op :: rest → step s = .next t →
      (op.resets s.counts = true ∧ t.err = false) ∨
      (op.resets s.counts = false ∧ t.err = true ∧ t.cause = s.cause ∧ t.errcmd = s.errcmd))

/-- R173, R197: a host that has faulted the engine and only issues commands computes nothing: any number of
steps leaves everything but the host's own list and position as it was.  That a step past the end of the list
leaves the state as it is, is the model's choice (log entry 6). -/
def Obligations.HaltedRunComputesNothing : Prop :=
  ∀ (n : Nat) (s : State), s.err = true → (∀ op ∈ s.ops, op.issues s.counts = true) →
    Sys2Proof.core.run n s =
      .next { s with ops := s.ops.drop n, pc := s.pc + min n s.ops.length }

/-- R176: no command faults because of what registers hold: a command whose form is accepted retires, and the
status registers are as before. -/
def Obligations.DataNeverFaults : Prop :=
  ∀ (s : State) (i : Instr), s.err = false → i.wf s.counts = true →
    ∃ t, exec i s = .next t ∧ t.err = false ∧ t.cause = s.cause ∧ t.errcmd = s.errcmd ∧
      OnlyChanges (destOf i) s t ∧ t.written (destOf i) = true

/-! ### Reset and the control registers -/

/-- R42: after reset `STATUS`, `CAUSE`, `ERRCMD` are 0 and every data register is UNSPECIFIED (nothing has
written it), for any register counts; `State.reset` is that state with the default counts of R9. -/
def Obligations.ResetState : Prop :=
  (∀ c : Counts, (State.resetWith c).counts = c ∧
    (State.resetWith c).statusWord = 0 ∧ (State.resetWith c).causeWord = 0 ∧
    (State.resetWith c).errcmdWord = 0 ∧ (State.resetWith c).Unwritten) ∧
  State.reset = State.resetWith ⟨16, 4, 8⟩

/-- R190: the hard reset input and a write of 1 to `CTRL.SRST` have one effect, also while `ERR` is 1: the
status registers are 0 and every data register is UNSPECIFIED; the register counts stay.  That the input is an
operation of the host's list (R174 gives it a place in the order) and that a reset leaves the host's list,
position and values read as they are, are the model's choices (log entries 7 and 3). -/
def Obligations.BothResetsHaveOneEffect : Prop :=
  ∀ (s : State) (op : HostOp), op.resets s.counts = true →
    performOp op s = performOp .hardReset s ∧
    ∃ t, performOp op s = .next t ∧ t.statusWord = 0 ∧ t.causeWord = 0 ∧ t.errcmdWord = 0 ∧ t.Unwritten ∧
      t.counts = s.counts ∧ t.ops = s.ops ∧ t.pc = s.pc ∧ t.reads = s.reads

/-- R38: a write to 0x010 with bit 0 of the value 1 resets, with bit 0 equal to 0 does nothing, whatever bits
31:1; a read returns 0. -/
def Obligations.CtrlRegister : Prop :=
  ∀ (s : State) (v : Word),
    (bits v.toNat 0 1 = 1 → hostWrite (offsetAt 0x010) v s = .next s.engineReset) ∧
    (bits v.toNat 0 1 = 0 → hostWrite (offsetAt 0x010) v s = .next s) ∧
    s.windowRead (offsetAt 0x010) = 0

/-- What the status registers read as, and that a write to one is ignored (R35, R36, R37): `STATUS` is bit 0
`ERR` and zeros, `CAUSE` is bits 3:0 `CODE` and zeros, `ERRCMD` is all 32 bits. -/
def Obligations.StatusRegistersReadOnly : Prop :=
  ∀ s : State,
    (s.windowRead (offsetAt 0x004)).toNat = s.err.toNat ∧
    (s.windowRead (offsetAt 0x008)).toNat = s.cause.toNat ∧
    s.windowRead (offsetAt 0x00C) = s.errcmd ∧
    ∀ v, hostWrite (offsetAt 0x004) v s = .next s ∧ hostWrite (offsetAt 0x008) v s = .next s ∧
      hostWrite (offsetAt 0x00C) v s = .next s

/-! ### The host window -/

/-- R53: a read returns a value to the host and changes nothing of the engine, so that a second read of an
offset returns the same (R43 apart: of a data register that has been written); it returns 0 for `CMD`,
`CTRL` and every reserved offset, and the register's value for every other.  That the value read is put at the
head of a list in the state is the model's choice (log entry 8). -/
def Obligations.ReadsHaveNoSideEffect : Prop :=
  ∀ (s : State) (off : Offset),
    (∃ t, performOp (.read off) s = .next t ∧ t.reads = s.windowRead off :: s.reads ∧
      t.f = s.f ∧ t.b = s.b ∧ t.w = s.w ∧ t.err = s.err ∧ t.cause = s.cause ∧ t.errcmd = s.errcmd ∧
      t.ops = s.ops ∧ t.pc = s.pc ∧
      ∀ o, (∀ r, (portOf s.counts o).reg = some r → s.written r = true) → t.windowRead o = s.windowRead o) ∧
    (byteOffset off = 0x000 ∨ byteOffset off = 0x010 ∨ portOf s.counts off = .reserved →
      s.windowRead off = 0) ∧
    (byteOffset off = 0x004 → s.windowRead off = s.statusWord) ∧
    (byteOffset off = 0x008 → s.windowRead off = s.causeWord) ∧
    (byteOffset off = 0x00C → s.windowRead off = s.errcmdWord) ∧
    (∀ k, portOf s.counts off = .word k → s.windowRead off = s.readW k) ∧
    (∀ k m, portOf s.counts off = .bufWord k m → s.windowRead off = s.readBufWord k m) ∧
    (∀ k i, portOf s.counts off = .limb k i → s.windowRead off = (s.readF k)[i])

/-- The map of R51: every register that exists is at its own offset, and every offset that is not reserved is
the offset of exactly the register the map gives. -/
def Obligations.WindowMapIsExact : Prop :=
  (∀ (c : Counts) (p : Port), p.present c → portOf c (offsetAt (offsetOfPort p)) = p) ∧
  (∀ (c : Counts) (off : Offset), portOf c off ≠ .reserved →
    (portOf c off).present c ∧ byteOffset off = offsetOfPort (portOf c off))

/-- R54: the reserved offsets, among them the slots of registers whose index is not below its count and the
words after the ten limbs of a slot, read as 0 and ignore writes. -/
def Obligations.ReservedOffsetsAreInert : Prop :=
  ∀ (s : State) (off : Offset) (n : Nat), n = byteOffset off →
    ((0x014 ≤ n ∧ n ≤ 0x03C) ∨ (0x040 ≤ n ∧ n ≤ 0x07C ∧ s.counts.nw ≤ (n - 0x040) / 4) ∨
      (0x080 ≤ n ∧ n ≤ 0x0FC) ∨ (0x100 ≤ n ∧ n ≤ 0x2FC ∧ s.counts.nb ≤ (n - 0x100) / 32) ∨
      (0x300 ≤ n ∧ n ≤ 0x3FC) ∨
      (0x400 ≤ n ∧ (s.counts.nf ≤ (n - 0x400) / 64 ∨ 40 ≤ (n - 0x400) % 64))) →
    s.windowRead off = 0 ∧ ∀ v, hostWrite off v s = .next s

/-- R56: `W[k]` is at `0x040 + 4*k`; a write stores all 32 bits and a read returns them. -/
def Obligations.WordRegisterWindow : Prop :=
  ∀ (s : State) (k : WIdx) (v : Word), k.val < s.counts.nw →
    s.windowRead (offsetAt (0x040 + 4 * k.val)) = s.readW k ∧
    ∃ t, hostWrite (offsetAt (0x040 + 4 * k.val)) v s = .next t ∧ OnlyChanges ⟨.W, k⟩ s t ∧
      t.readW k = v ∧ t.windowRead (offsetAt (0x040 + 4 * k.val)) = v

/-- R57: word `m` of `B[k]` is at `0x100 + 32*k + 4*m`; it reads as its four bytes, the lowest-numbered in the
least significant bits; a write sets those four bytes and leaves the storage of every other as it is, so that
a byte that has been written reads as before; the eight words, word 0 least significant, are `LE(B[k])`. -/
def Obligations.BufferWindow : Prop :=
  ∀ (s : State) (k : BIdx) (m : Fin 8) (v : Word), k.val < s.counts.nb →
    (s.windowRead (offsetAt (0x100 + 32 * k.val + 4 * m.val))).toNat =
      (s.readB k)[byteIndex m 0].toNat + (s.readB k)[byteIndex m 1].toNat * 2 ^ 8 +
      (s.readB k)[byteIndex m 2].toNat * 2 ^ 16 + (s.readB k)[byteIndex m 3].toNat * 2 ^ 24 ∧
    (∃ t, hostWrite (offsetAt (0x100 + 32 * k.val + 4 * m.val)) v s = .next t ∧ OnlyChanges ⟨.B, k⟩ s t ∧
      (∀ q : Fin 4, (t.readB k)[byteIndex m q].toNat = bits v.toNat (8 * q.val) 8) ∧
      (∀ j : Fin 32, j.val / 4 ≠ m.val → t.byteCell k j = s.byteCell k j ∧
        ((s.byteCell k j).written = true → (t.readB k)[j] = (s.readB k)[j]))) ∧
    leValue (s.readB k) =
      ∑ n : Fin 8, (s.windowRead (offsetAt (0x100 + 32 * k.val + 4 * n.val))).toNat * 2 ^ (32 * n.val)

/-- R58: `F[k][i]` is at `0x400 + 64*k + 4*i`; a write stores all 32 bits into that limb, whatever they are,
and a read returns the limb; the storage of every other limb stays as it is, so that one that has been written
reads as before. -/
def Obligations.LimbWindow : Prop :=
  ∀ (s : State) (k : FIdx) (i : Fin 10) (v : Word), k.val < s.counts.nf →
    s.windowRead (offsetAt (0x400 + 64 * k.val + 4 * i.val)) = (s.readF k)[i] ∧
    ∃ t, hostWrite (offsetAt (0x400 + 64 * k.val + 4 * i.val)) v s = .next t ∧ OnlyChanges ⟨.F, k⟩ s t ∧
      (t.readF k)[i] = v ∧ t.windowRead (offsetAt (0x400 + 64 * k.val + 4 * i.val)) = v ∧
      ∀ j : Fin 10, j ≠ i → t.limbCell k j = s.limbCell k j ∧
        ((s.limbCell k j).written = true → (t.readF k)[j] = (s.readF k)[j])

/-- R52: a host write does exactly one of: issue a command (offset 0x000), reset (offset 0x010 with bit 0 set),
write one data register, nothing.  A data register write stores the value, which the offset then reads as,
and changes that register alone, whether or not the engine has faulted (R65). -/
def Obligations.HostWriteDoesOneThing : Prop :=
  ∀ (s : State) (off : Offset) (v : Word),
    (byteOffset off = 0x000 → hostWrite off v s = issueCommand v s) ∧
    (byteOffset off = 0x010 → hostWrite off v s = .next (if bits v.toNat 0 1 = 1 then s.engineReset else s)) ∧
    (byteOffset off ≠ 0x000 → byteOffset off ≠ 0x010 →
      ∃ t, hostWrite off v s = .next t ∧
        (∀ r, (portOf s.counts off).reg = some r → OnlyChanges r s t ∧ t.windowRead off = v) ∧
        ((portOf s.counts off).reg = none → t = s))

/-- A platform address reaches the window exactly when it is an aligned address of the 2048 bytes at
`FEE_BASE`, and then it reaches the word of its offset (R50, R55). -/
def Obligations.PlatformAddressesOfTheWindow : Prop :=
  ∀ (addr : Nat) (off : Offset),
    platformOffset addr = some off ↔ addr = Config.feeBase + byteOffset off

/-- The pseudo-instructions `wrf` and `wrb` of R95 load a whole register: after their host operations the
register reads as the given limbs or bytes, no other register has changed, and the host goes on with the
rest of its list. -/
def Obligations.PseudoInstructionsLoadARegister : Prop :=
  ∀ (s : State) (rest : List HostOp) (k : Fin 16),
    (∀ l : Limbs, k.val < s.counts.nf → s.ops = wrf k l ++ rest →
      ∃ t, Sys2Proof.core.run 10 s = .next t ∧ t.readF k = l ∧ t.written ⟨.F, k⟩ = true ∧
        OnlyChanges ⟨.F, k⟩ { s with ops := rest, pc := s.pc + 10 } t) ∧
    (∀ h : Buffer, k.val < s.counts.nb → s.ops = wrb k h ++ rest →
      ∃ t, Sys2Proof.core.run 8 s = .next t ∧ t.readB k = h ∧ t.written ⟨.B, k⟩ = true ∧
        OnlyChanges ⟨.B, k⟩ { s with ops := rest, pc := s.pc + 8 } t)

/-! ### The linear commands -/

/-- R111, the whole rule of `add`. -/
def Obligations.AddRule : Prop :=
  (∀ (w : Word) (d a b : FIdx), decode w = .ok (.add d a b) ↔
    w &&& 0xFFF000FF = 0x00000001 ∧ (fields w).rd = d ∧ (fields w).ra = a ∧ (fields w).rb = b) ∧
  ∀ (s : State) (d a b : FIdx), s.err = false →
    FormChecked (.add d a b) s ∧
    (Instr.wf s.counts (.add d a b) = true →
      Retires (.add d a b) s fun t =>
        Tight (digits (s.readF a)) → Tight (digits (s.readF b)) →
          (∀ i, digits (t.readF d) i = digits (s.readF a) i + digits (s.readF b) i) ∧
          (∀ i, digits (t.readF d) i ≤ 2 * tightMax i) ∧ Loose (digits (t.readF d)) ∧
          eval (digits (t.readF d)) = eval (digits (s.readF a)) + eval (digits (s.readF b)))

/-- R112, the whole rule of `sub`. -/
def Obligations.SubRule : Prop :=
  (∀ (w : Word) (d a b : FIdx), decode w = .ok (.sub d a b) ↔
    w &&& 0xFFF000FF = 0x00000002 ∧ (fields w).rd = d ∧ (fields w).ra = a ∧ (fields w).rb = b) ∧
  ∀ (s : State) (d a b : FIdx), s.err = false →
    FormChecked (.sub d a b) s ∧
    (Instr.wf s.counts (.sub d a b) = true →
      Retires (.sub d a b) s fun t =>
        Tight (digits (s.readF a)) → Tight (digits (s.readF b)) →
          (∀ i, digits (t.readF d) i + digits (s.readF b) i = bias i + digits (s.readF a) i) ∧
          (∀ i, bias i - tightMax i ≤ digits (t.readF d) i ∧ digits (t.readF d) i ≤ bias i + tightMax i) ∧
          Loose (digits (t.readF d)) ∧
          eval (digits (t.readF d)) + eval (digits (s.readF b)) = 2 * P + eval (digits (s.readF a)))

/-- R113, the whole rule of `opp`. -/
def Obligations.OppRule : Prop :=
  (∀ (w : Word) (d a : FIdx), decode w = .ok (.opp d a) ↔
    w &&& 0xFFFF00FF = 0x00000003 ∧ (fields w).rd = d ∧ (fields w).ra = a) ∧
  ∀ (s : State) (d a : FIdx), s.err = false →
    FormChecked (.opp d a) s ∧
    (Instr.wf s.counts (.opp d a) = true →
      Retires (.opp d a) s fun t =>
        Tight (digits (s.readF a)) →
          (∀ i, digits (t.readF d) i + digits (s.readF a) i = bias i) ∧
          (∀ i, digits (t.readF d) i ≤ bias i ∧ bias i < 2 * tightMax i) ∧ Loose (digits (t.readF d)) ∧
          eval (digits (t.readF d)) + eval (digits (s.readF a)) = 2 * P)

/-- R22, R24, R110: the schedule, the digits of p and the bias, as the rules list them, and their values. -/
def Obligations.DigitsOfPAndBias : Prop :=
  (List.finRange 10).map wd = [26, 25, 26, 25, 26, 25, 26, 25, 26, 25] ∧
  (List.finRange 10).map expo = [0, 26, 51, 77, 102, 128, 153, 179, 204, 230] ∧
  (∀ i, mask i = 2 ^ wd i - 1) ∧ (∀ i : Fin 9, expo i.succ = expo i.castSucc + wd i.castSucc) ∧
  expo 9 + wd 9 = 255 ∧ (∀ i, pDigit i = (P >>> expo i) &&& mask i) ∧
  pDigit 0 = 0x3FFFFED ∧ (∀ i : Fin 10, i.val % 2 = 1 → pDigit i = 0x1FFFFFF) ∧
  (∀ i : Fin 10, i.val % 2 = 0 → i ≠ 0 → pDigit i = 0x3FFFFFF) ∧ eval pDigit = P ∧
  bias 0 = 0x7FFFFDA ∧ (∀ i : Fin 10, i.val % 2 = 1 → bias i = 0x3FFFFFE) ∧
  (∀ i : Fin 10, i.val % 2 = 0 → i ≠ 0 → bias i = 0x7FFFFFE) ∧ eval bias = 2 * P ∧
  (∀ i, bias i = 2 * pDigit i) ∧ (∀ i, tightMax i ≤ bias i) ∧
  pDigit 0 < tightMax 0

/-- The ring laws of the linear commands (R114, spec/95_test_vectors.md S7): `add`, `sub` or `opp` of tight
operands, then `carry`, gives a tight vector congruent to the sum, difference or negation. -/
def Obligations.LinearThenCarryIsTheRingOperation : Prop :=
  ∀ (s : State) (d m a b : FIdx), s.err = false → Instr.wf s.counts (.carry d m) = true →
    Tight (digits (s.readF a)) → Tight (digits (s.readF b)) →
    (Instr.wf s.counts (.add m a b) = true → ∃ t u, exec (.add m a b) s = .next t ∧
      exec (.carry d m) t = .next u ∧ Tight (digits (u.readF d)) ∧
      eval (digits (u.readF d)) % P = (eval (digits (s.readF a)) + eval (digits (s.readF b))) % P) ∧
    (Instr.wf s.counts (.sub m a b) = true → ∃ t u, exec (.sub m a b) s = .next t ∧
      exec (.carry d m) t = .next u ∧ Tight (digits (u.readF d)) ∧
      (eval (digits (u.readF d)) + eval (digits (s.readF b))) % P = eval (digits (s.readF a)) % P) ∧
    (Instr.wf s.counts (.opp m a) = true → ∃ t u, exec (.opp m a) s = .next t ∧
      exec (.carry d m) t = .next u ∧ Tight (digits (u.readF d)) ∧
      (eval (digits (u.readF d)) + eval (digits (s.readF a))) % P = 0)

/-! ### Carry and relax -/

/-- R123: the properties of `Chain`, for any ten naturals; it does not canonicalise, and it is not idempotent
on limbs. -/
def Obligations.ChainProperties : Prop :=
  (∀ z : Digits,
    let c9 := passSum z 9 >>> 25
    let u0 := (passSum z 0 &&& mask 0) + 19 * c9
    let u1 := (passSum z 1 &&& mask 1) + (u0 >>> 26)
    (eval (chain z) + c9 * (2 ^ 255 - 19) = eval z ∧ eval (chain z) % P = eval z % P) ∧
    (chain z 0 ≤ 0x3FFFFFF ∧ chain z 1 ≤ 0x1FFFFFF ∧ (∀ i : Fin 10, 3 ≤ i.val → chain z i ≤ mask i) ∧
      chain z 2 ≤ mask 2 + (u1 >>> 25)) ∧
    ((c9 < 2 ^ 45 → 19 * c9 + mask 0 < 2 ^ 26 * (2 ^ 25 + 1)) ∧
      (19 * c9 + mask 0 < 2 ^ 26 * (2 ^ 25 + 1) →
        u0 >>> 26 ≤ 2 ^ 25 ∧ u1 < 2 ^ 26 ∧ u1 >>> 25 ≤ 1 ∧ chain z 2 ≤ 2 ^ 26 ∧ Tight (chain z))) ∧
    (Loose z → (∀ i : Fin 10, passSum z i.val ≤ looseMax i + 4 ∧ passSum z i.val < 2 ^ 28) ∧ c9 ≤ 3 ∧
      u0 ≤ 0x3FFFFFF + 57) ∧
    ((∀ i, z i < 2 ^ 63) →
      (∀ i : Fin 10, passSum z i.val >>> wd i < 2 ^ 39 ∧ passSum z i.val < 2 ^ 63 + 2 ^ 39) ∧
      c9 < 2 ^ 39 ∧ 19 * c9 < 2 ^ 44 ∧ u0 < 2 ^ 45 ∧ u0 >>> 26 < 2 ^ 19) ∧
    ((∀ i, z i ≤ mask i) → chain z = z)) ∧
  (∃ z, P ≤ eval (chain z) ∧ eval (chain z) < 2 * P) ∧ (∃ z, Tight z ∧ chain z ≠ z) ∧
  (∃ z, Loose z ∧ chain (chain z) ≠ chain z)

/-- R121, the whole rule of `carry`. -/
def Obligations.CarryRule : Prop :=
  (∀ (w : Word) (d a : FIdx), decode w = .ok (.carry d a) ↔
    w &&& 0xFFFF00FF = 0x00000004 ∧ (fields w).rd = d ∧ (fields w).ra = a) ∧
  ∀ (s : State) (d a : FIdx), s.err = false →
    FormChecked (.carry d a) s ∧
    (Instr.wf s.counts (.carry d a) = true →
      Retires (.carry d a) s fun t =>
        Loose (digits (s.readF a)) →
          digits (t.readF d) = chain (digits (s.readF a)) ∧ Tight (digits (t.readF d)) ∧
          digits (t.readF d) 0 ≤ 0x3FFFFFF ∧ digits (t.readF d) 1 ≤ 0x1FFFFFF ∧
          digits (t.readF d) 2 ≤ 0x4000000 ∧ (∀ i : Fin 10, 3 ≤ i.val → digits (t.readF d) i ≤ mask i) ∧
          eval (digits (t.readF d)) % P = eval (digits (s.readF a)) % P ∧
          eval (digits (t.readF d)) < 2 * P)

/-- R122, the whole rule of `relax`: a copy, bit for bit, with no precondition. -/
def Obligations.RelaxRule : Prop :=
  (∀ (w : Word) (d a : FIdx), decode w = .ok (.relax d a) ↔
    w &&& 0xFFFF00FF = 0x00000005 ∧ (fields w).rd = d ∧ (fields w).ra = a) ∧
  ∀ (s : State) (d a : FIdx), s.err = false →
    FormChecked (.relax d a) s ∧
    (Instr.wf s.counts (.relax d a) = true →
      Retires (.relax d a) s fun t => t.readF d = s.readF a ∧
        (Tight (digits (s.readF a)) → Tight (digits (t.readF d)) ∧ Loose (digits (t.readF d))))

/-! ### The multiplier -/

/-- R130: `Acc(a, b)[k]` is the sum over all pairs `(i, j)` with `(i + j) mod 10 = k` of
`f(i, j) * a[i] * b[j]`, with the factors of the rule: 1, 2, 19 or 38, and the same for `(j, i)`. -/
def Obligations.AccumulatorIsThePairSum : Prop :=
  (∀ i j : Fin 10, factor i.val j.val =
    (if i.val % 2 = 1 ∧ j.val % 2 = 1 then 2 else 1) * (if i.val + j.val ≥ 10 then 19 else 1) ∧
    factor i.val j.val ∈ [1, 2, 19, 38] ∧ factor i.val j.val = factor j.val i.val) ∧
  ∀ (a b : Digits) (k : Fin 10), acc a b k =
    ∑ i : Fin 10, ∑ j : Fin 10, if (i.val + j.val) % 10 = k.val then factor i.val j.val * a i * b j else 0

/-- R133: the weights behind the factors; the accumulators represent the product mod p, and the product
itself when no pair wraps. -/
def Obligations.AccumulatorsRepresentTheProduct : Prop :=
  (∀ i j : Fin 10, expo i + expo j = expo (i + j) + (if 10 ≤ i.val + j.val then 255 else 0) +
    (if i.val % 2 = 1 ∧ j.val % 2 = 1 then 1 else 0)) ∧
  ∀ a b : Digits, eval (acc a b) % P = (eval a * eval b) % P ∧
    ((∀ i j : Fin 10, 10 ≤ i.val + j.val → a i * b j = 0) → eval (acc a b) = eval a * eval b)

/-- R134: for loose operands every accumulator is below 2^63, the largest being `Acc(LOOSE_MAX,
LOOSE_MAX)[0]`, the chain's sums on top of them fit 64 bits, and a limb times its factor fits 32 bits. -/
def Obligations.AccumulatorWidths : Prop :=
  acc looseMax looseMax 0 = 0x4608000000000000 ∧
  ∀ a b : Digits, Loose a → Loose b →
    (∀ k, acc a b k ≤ acc looseMax looseMax 0 ∧ acc a b k < 2 ^ 63) ∧
    (∀ i : Fin 10, passSum (acc a b) i.val < 2 ^ 64) ∧
    (∀ i j : Fin 10, factor i.val j.val * a i ≤ 0xE4000000 ∧ factor i.val j.val * a i < 2 ^ 32)

/-- R131, the whole rule of `carry_mul`. -/
def Obligations.CarryMulRule : Prop :=
  (∀ (w : Word) (d a b : FIdx), decode w = .ok (.carryMul d a b) ↔
    w &&& 0xFFF000FF = 0x00000008 ∧ (fields w).rd = d ∧ (fields w).ra = a ∧ (fields w).rb = b) ∧
  ∀ (s : State) (d a b : FIdx), s.err = false →
    FormChecked (.carryMul d a b) s ∧
    (Instr.wf s.counts (.carryMul d a b) = true →
      Retires (.carryMul d a b) s fun t =>
        Loose (digits (s.readF a)) → Loose (digits (s.readF b)) →
          digits (t.readF d) = chain (acc (digits (s.readF a)) (digits (s.readF b))) ∧
          Tight (digits (t.readF d)) ∧ (∀ i, i ≠ 2 → digits (t.readF d) i ≤ mask i) ∧
          eval (digits (t.readF d)) % P = (eval (digits (s.readF a)) * eval (digits (s.readF b))) % P)

/-- R132, the whole rule of `carry_square`; the result is that of `carry_mul` with both sources the same
register. -/
def Obligations.CarrySquareRule : Prop :=
  (∀ (w : Word) (d a : FIdx), decode w = .ok (.carrySquare d a) ↔
    w &&& 0xFFFF00FF = 0x00000009 ∧ (fields w).rd = d ∧ (fields w).ra = a) ∧
  ∀ (s : State) (d a : FIdx), s.err = false →
    FormChecked (.carrySquare d a) s ∧
    (Instr.wf s.counts (.carrySquare d a) = true →
      Retires (.carrySquare d a) s fun t =>
        Loose (digits (s.readF a)) →
          digits (t.readF d) = chain (acc (digits (s.readF a)) (digits (s.readF a))) ∧
          Tight (digits (t.readF d)) ∧
          eval (digits (t.readF d)) % P = eval (digits (s.readF a)) ^ 2 % P ∧
          ∃ u, exec (.carryMul d a a) s = .next u ∧ u.readF d = t.readF d)

/-- R140, the whole rule of `carry_scmul_const`. -/
def Obligations.CarryScmulConstRule : Prop :=
  (∀ (w : Word) (d a : FIdx), decode w = .ok (.carryScmulConst d a) ↔
    w &&& 0xFFFF00FF = 0x0000000A ∧ (fields w).rd = d ∧ (fields w).ra = a) ∧
  ∀ (s : State) (d a : FIdx), s.err = false →
    FormChecked (.carryScmulConst d a) s ∧
    (Instr.wf s.counts (.carryScmulConst d a) = true →
      Retires (.carryScmulConst d a) s fun t =>
        Loose (digits (s.readF a)) →
          digits (t.readF d) = chain (fun i => 121666 * digits (s.readF a) i) ∧
          (∀ i, 121666 * digits (s.readF a) i < 2 ^ 45) ∧
          (∀ i : Fin 10, passSum (fun i => 121666 * digits (s.readF a) i) i.val < 2 ^ 46) ∧
          passSum (fun i => 121666 * digits (s.readF a) i) 9 >>> 25 < 2 ^ 21 ∧ Tight (digits (t.readF d)) ∧
          eval (digits (t.readF d)) % P = (121666 * eval (digits (s.readF a))) % P)

/-! ### Selection -/

/-- R148: the selector, as a mask and merge of 32-bit words. -/
def Obligations.SelectorIsTheMaskMerge : Prop :=
  selMask 0 = 0x00000000 ∧ selMask 1 = 0xFFFFFFFF ∧
  ∀ u v : Word, (sel 0 u v = u ∧ sel 1 u v = v) ∧
    ∀ c, Predicate c → (selMask c).toNat = (2 ^ 32 - c.toNat) % 2 ^ 32 ∧
      sel c u v = (v &&& selMask c) ||| (u &&& ~~~ selMask c)

/-- R145, the whole rule of `cmov`. -/
def Obligations.CmovRule : Prop :=
  (∀ (w : Word) (d a b p : WIdx), decode w = .ok (.cmov d a b p) ↔
    w &&& 0xFF0000FF = 0x00000010 ∧ (fields w).rd = d ∧ (fields w).ra = a ∧ (fields w).rb = b ∧
      (fields w).rc = p) ∧
  ∀ (s : State) (d a b p : WIdx), s.err = false →
    FormChecked (.cmov d a b p) s ∧
    (Instr.wf s.counts (.cmov d a b p) = true →
      Retires (.cmov d a b p) s fun t =>
        (s.readW p = 0 → t.readW d = s.readW a) ∧ (s.readW p = 1 → t.readW d = s.readW b))

/-- R146, the whole rule of `select`. -/
def Obligations.SelectRule : Prop :=
  (∀ (w : Word) (d a b : FIdx) (p : WIdx), decode w = .ok (.select d a b p) ↔
    w &&& 0xFF0000FF = 0x00000011 ∧ (fields w).rd = d ∧ (fields w).ra = a ∧ (fields w).rb = b ∧
      (fields w).rc = p) ∧
  ∀ (s : State) (d a b : FIdx) (p : WIdx), s.err = false →
    FormChecked (.select d a b p) s ∧
    (Instr.wf s.counts (.select d a b p) = true →
      Retires (.select d a b p) s fun t =>
        (s.readW p = 0 → t.readF d = s.readF a) ∧ (s.readW p = 1 → t.readF d = s.readF b) ∧
        (Predicate (s.readW p) →
          (Tight (digits (s.readF a)) → Tight (digits (s.readF b)) → Tight (digits (t.readF d))) ∧
          (Loose (digits (s.readF a)) → Loose (digits (s.readF b)) → Loose (digits (t.readF d)))))

/-- Two `select` commands into two fresh registers, the sources exchanged, swap two registers exactly when the
predicate is 1 (R146, spec/95_test_vectors.md P4). -/
def Obligations.TwoSelectsSwap : Prop :=
  ∀ (s : State) (d e a b : FIdx) (p : WIdx), s.err = false →
    Instr.wf s.counts (.select d a b p) = true → Instr.wf s.counts (.select e b a p) = true → d ≠ e →
    s.written ⟨.F, a⟩ = true → s.written ⟨.F, b⟩ = true → s.written ⟨.W, p⟩ = true →
    ∃ t u, exec (.select d a b p) s = .next t ∧ exec (.select e b a p) t = .next u ∧
      (s.readW p = 0 → u.readF d = s.readF a ∧ u.readF e = s.readF b) ∧
      (s.readW p = 1 → u.readF d = s.readF b ∧ u.readF e = s.readF a) ∧
      u.readF a = s.readF a ∧ u.readF b = s.readF b

/-! ### The codec -/

/-- R155, the whole rule of `to_bytes`. -/
def Obligations.ToBytesRule : Prop :=
  (∀ (w : Word) (d : BIdx) (a : FIdx), decode w = .ok (.toBytes d a) ↔
    w &&& 0xFFFF00FF = 0x00000018 ∧ (fields w).rd = d ∧ (fields w).ra = a) ∧
  ∀ (s : State) (d : BIdx) (a : FIdx), s.err = false →
    FormChecked (.toBytes d a) s ∧
    (Instr.wf s.counts (.toBytes d a) = true →
      Retires (.toBytes d a) s fun t =>
        Tight (digits (s.readF a)) →
          (∀ j : Fin 32, ((t.readB d)[j]).toNat = bits (eval (digits (s.readF a)) % P) (8 * j.val) 8) ∧
          leValue (t.readB d) = eval (digits (s.readF a)) % P ∧ leValue (t.readB d) < P ∧
          ((t.readB d)[(31 : Fin 32)]).getLsbD 7 = false)

/-- R156: the borrow chain leaves digits within their masks, borrows exactly when the value is below p, and
chooses the canonical integer, for every tight vector. -/
def Obligations.BorrowChainIsCanonical : Prop :=
  ∀ x : Digits, Tight x →
    (∀ i, -(2 ^ wd i : Int) ≤ (x i : Int) - (pDigit i : Int) - (borrowInto x i.val : Int) ∧
      (x i : Int) - (pDigit i : Int) - (borrowInto x i.val : Int) ≤ 19) ∧
    (∀ i, borrowDigit x i ≤ mask i) ∧
    ((eval (borrowDigit x) : Int) - (borrowInto x 10 : Int) * 2 ^ 255 = (eval x : Int) - (P : Int)) ∧
    (borrowInto x 10 = 1 ↔ eval x < P) ∧
    canonicalByBorrow x = canonical x ∧ canonical x = eval x % P

/-- R157, the whole rule of `from_bytes`: it completes whatever the buffer holds, and is total on every 32 bytes
written to it.  FromBytesOfAnyContents says what the model does with a buffer nothing has written. -/
def Obligations.FromBytesRule : Prop :=
  (∀ (w : Word) (d : FIdx) (a : BIdx), decode w = .ok (.fromBytes d a) ↔
    w &&& 0xFFFF00FF = 0x00000019 ∧ (fields w).rd = d ∧ (fields w).ra = a) ∧
  ∀ (s : State) (d : FIdx) (a : BIdx), s.err = false →
    FormChecked (.fromBytes d a) s ∧
    (Instr.wf s.counts (.fromBytes d a) = true →
      Retires (.fromBytes d a) s fun t =>
        s.written ⟨.B, a⟩ = true →
          (∀ i, digits (t.readF d) i = ((leValue (s.readB a) % 2 ^ 255) >>> expo i) &&& mask i) ∧
          (∀ i, digits (t.readF d) i ≤ mask i) ∧ Tight (digits (t.readF d)) ∧
          eval (digits (t.readF d)) = leValue (s.readB a) % 2 ^ 255)

/-- R158: bit `n` of the integer is bit `n mod 8` of byte `n div 8`, in both directions, and limb `i` holds bits
`E(i)` to `E(i) + Wd(i) - 1`; bit 255 is bit 7 of byte 31. -/
def Obligations.BitPositionsOfTheCodec : Prop :=
  (∀ (b : Buffer) (n : Fin 256), (leValue b).testBit n.val = (b[n.val / 8]'(by omega)).getLsbD (n.val % 8)) ∧
  (∀ (c : Nat) (n : Fin 255), c < 2 ^ 255 →
    ((packBytes c)[n.val / 8]'(by omega)).getLsbD (n.val % 8) = c.testBit n.val) ∧
  (∀ (b : Buffer) (i : Fin 10) (q : Nat), q < wd i → ∀ h : (expo i + q) / 8 < 32,
    (unpackLimbs b i).testBit q = (b[(expo i + q) / 8]'h).getLsbD ((expo i + q) % 8)) ∧
  (∀ c : Nat, c < 2 ^ 255 → ((packBytes c)[(31 : Fin 32)]).getLsbD 7 = false)

/-- R159: the round trips.  A tight vector written out by `to_bytes` and read back by `from_bytes` gives the
canonical vector of its value mod p, and writing that out again gives the same bytes; any 32 bytes in a
written buffer, read and written out again, encode `(LE(b) mod 2^255) mod p`, which is `LE(b)` exactly when `LE(b) < p`. -/
def Obligations.CodecRoundTrips : Prop :=
  (∀ (s : State) (k m : BIdx) (a d : FIdx), s.err = false → Instr.wf s.counts (.toBytes k a) = true →
    Instr.wf s.counts (.fromBytes d k) = true → Instr.wf s.counts (.toBytes m d) = true → m ≠ k →
    Tight (digits (s.readF a)) →
    ∃ t u v, exec (.toBytes k a) s = .next t ∧ exec (.fromBytes d k) t = .next u ∧
      exec (.toBytes m d) u = .next v ∧ Canonical (digits (u.readF d)) ∧
      eval (digits (u.readF d)) = eval (digits (s.readF a)) % P ∧ v.readB m = t.readB k) ∧
  (∀ (s : State) (k m : BIdx) (d : FIdx), s.err = false → Instr.wf s.counts (.fromBytes d k) = true →
    Instr.wf s.counts (.toBytes m d) = true → s.written ⟨.B, k⟩ = true →
    ∃ t u, exec (.fromBytes d k) s = .next t ∧ exec (.toBytes m d) t = .next u ∧
      leValue (u.readB m) = leValue (s.readB k) % 2 ^ 255 % P ∧
      (leValue (u.readB m) = leValue (s.readB k) ↔ leValue (s.readB k) < P))

/-- R27: a tight vector is loose, with a value no more than the rule's bound, below 2p; every field element has
exactly one canonical vector, as every vector of digits within their masks is the only one of its value. -/
def Obligations.CanonicalVectorsAreUnique : Prop :=
  (∀ x y : Digits, (∀ i, x i ≤ mask i) → (∀ i, y i ≤ mask i) → eval x = eval y → x = y) ∧
  (∀ n : Nat, n < P → ∃ x, Canonical x ∧ eval x = n) ∧
  (∀ x : Digits, Tight x → Loose x ∧
    eval x ≤ 2 ^ 255 + 2 ^ 26 + 2 ^ 51 + 2 ^ 77 + 2 ^ 102 + 2 ^ 128 + 2 ^ 153 + 2 ^ 179 + 2 ^ 204 + 2 ^ 230) ∧
  2 ^ 255 + 2 ^ 26 + 2 ^ 51 + 2 ^ 77 + 2 ^ 102 + 2 ^ 128 + 2 ^ 153 + 2 ^ 179 + 2 ^ 204 + 2 ^ 230 < 2 * P

/-! ### Whole-machine rules -/

/-- The frame of every command (R89, R172, R173): where `exec` gives a next state, it is the state as it was
(discarded), or that state with the three status registers of a fault, or one in which the destination
register alone may differ. -/
def Obligations.CommandFrame : Prop :=
  ∀ (i : Instr) (s t : State), exec i s = .next t →
    (s.err = true ∧ t = s) ∨
    (s.err = false ∧ t.err = true ∧ t.errcmd = encode i ∧ t.f = s.f ∧ t.b = s.b ∧ t.w = s.w ∧
      t.ops = s.ops ∧ t.pc = s.pc ∧ t.reads = s.reads) ∨
    (s.err = false ∧ t.err = false ∧ OnlyChanges (destOf i) s t)

/-- R41, R198: a command leaves every register but its destination as it is: one that has been written reads
the same after the command, whether it retires, faults or is discarded. -/
def Obligations.OtherRegistersKeepTheirValues : Prop :=
  ∀ (i : Instr) (s t : State) (r : Reg), exec i s = .next t → s.written r = true → r ≠ destOf i →
    t.written r = true ∧ SameRead s t r

/-- R39: what a command leaves in its destination depends only on its word and on what its source registers
read as, where its data precondition holds. -/
def Obligations.ResultDependsOnlyOnSources : Prop :=
  ∀ (i : Instr) (s s' : State), s.err = false → s'.err = false → s'.counts = s.counts →
    i.wf s.counts = true → DataOk s i → (∀ r ∈ sourcesOf i, SameRead s s' r) →
    ∃ t t', exec i s = .next t ∧ exec i s' = .next t' ∧ SameRead t t' (destOf i)

/-- Every step answers a next state; with no host operation it leaves the state as it is, and with one the
host's list is one shorter and its position one further, whether the operation retires, faults or is
discarded (R31, R174, R190).  The step with no host operation (log entry 6), and that the hard reset input is an
operation that advances the position (log entry 7), are the model's choices. -/
def Obligations.EveryStepAnswersNext : Prop :=
  ∀ s : State, (s.ops = [] → step s = .next s) ∧
    ∀ op rest, s.ops = op :: rest →
      ∃ t, step s = .next t ∧ t.ops = rest ∧ t.pc = s.pc + 1 ∧ t.counts = s.counts

/-- The invariant holds after reset, for every legal choice of the register counts. -/
def Obligations.ResetMeetsTheInvariant : Prop :=
  State.reset.Inv ∧ ∀ c : Counts, c.Legal → (State.resetWith c).Inv

/-- Every step keeps the invariant: the counts stay legal; `CAUSE` and `ERRCMD` read 0 while `ERR` is 0; while
`ERR` is 1, `ERRCMD` is a word that faults on this engine and `CAUSE` is that fault's code; unwritten
storage keeps its one form. -/
def Obligations.StepKeepsTheInvariant : Prop :=
  ∀ s t : State, s.Inv → step s = .next t → t.Inv

/-! ### Values the spec leaves open -/

/-- R43, U3: a cell of a data register that nothing has written since reset, as every cell is after a reset,
reads as a free value, never as a stored number: to a command, and to the host, whose read leaves the cell
unwritten and the next read another free value.  The free values are the model's form (log entries 1 and 2). -/
def Obligations.UnwrittenCellsReadAsFreeValues : Prop :=
  ∀ s : State,
    (∀ (k : FIdx) (i : Fin 10), (s.limbCell k i).written = false →
      (s.readF k)[i] = Config.unwrittenLimb s.free k.val i.val ∧
      ∀ off, portOf s.counts off = .limb k i → ∃ t, performOp (.read off) s = .next t ∧
        t.reads = Config.unwrittenLimb s.free k.val i.val :: s.reads ∧ (t.limbCell k i).written = false ∧
        t.windowRead off = Config.unwrittenLimb (s.free + 1) k.val i.val) ∧
    (∀ (k : BIdx) (j : Fin 32), (s.byteCell k j).written = false →
      (s.readB k)[j] = Config.unwrittenByte s.free k.val j.val ∧
      ∀ off (m : Fin 8), portOf s.counts off = .bufWord k m → j.val / 4 = m.val →
        bits (s.windowRead off).toNat (8 * (j.val % 4)) 8 = (Config.unwrittenByte s.free k.val j.val).toNat ∧
        ∃ t, performOp (.read off) s = .next t ∧ (t.byteCell k j).written = false ∧
          bits (t.windowRead off).toNat (8 * (j.val % 4)) 8 =
            (Config.unwrittenByte (s.free + 1) k.val j.val).toNat) ∧
    (∀ k : WIdx, (s.wordCell k).written = false →
      s.readW k = Config.unwrittenWord s.free k.val ∧
      ∀ off, portOf s.counts off = .word k → ∃ t, performOp (.read off) s = .next t ∧
        t.reads = Config.unwrittenWord s.free k.val :: s.reads ∧ (t.wordCell k).written = false ∧
        t.windowRead off = Config.unwrittenWord (s.free + 1) k.val) ∧
    (∀ k i, (s.engineReset.limbCell k i).written = false) ∧ (∀ k j, (s.engineReset.byteCell k j).written = false) ∧
    ∀ k, (s.engineReset.wordCell k).written = false

/-- R176, U1, U2: where a command's data precondition fails, the command retires, nothing but its destination
changes, and every limb, byte or word of the destination is a free value: no wrapped sum, no mix of the
sources.  The next such command draws others.  The free values are the model's form (log entries 1 and 15). -/
def Obligations.ViolatedPreconditionGivesFreeValues : Prop :=
  ∀ (s : State) (i : Instr), s.err = false → i.wf s.counts = true → ¬ DataOk s i →
    Retires i s fun t =>
      t.free = s.free + 1 ∧
      ((destOf i).file = .F → ∀ n : Fin 10, (t.readF (destOf i).idx)[n] = Config.unspecLimb s.free n.val) ∧
      ((destOf i).file = .B → ∀ j : Fin 32, (t.readB (destOf i).idx)[j] = Config.unspecByte s.free j.val) ∧
      ((destOf i).file = .W → t.readW (destOf i).idx = Config.unspecWord s.free)

/-- `from_bytes` of any buffer, written or not: the limbs are the digits of whatever its read gives, within their
masks, and `to_bytes` of them encodes that value mod p.  For a buffer nothing has written, that the result
keeps this shape is the model's reading of U3 beside R194 (log entry 19); the value stays free. -/
def Obligations.FromBytesOfAnyContents : Prop :=
  ∀ (s : State) (d : FIdx) (a m : BIdx), s.err = false → Instr.wf s.counts (.fromBytes d a) = true →
    Retires (.fromBytes d a) s fun t =>
      (∀ i, digits (t.readF d) i = ((leValue (s.readB a) % 2 ^ 255) >>> expo i) &&& mask i) ∧
      (∀ i, digits (t.readF d) i ≤ mask i) ∧ Tight (digits (t.readF d)) ∧
      eval (digits (t.readF d)) = leValue (s.readB a) % 2 ^ 255 ∧
      (Instr.wf s.counts (.toBytes m d) = true →
        Retires (.toBytes m d) t fun u => leValue (u.readB m) = leValue (s.readB a) % 2 ^ 255 % P)
end

