-- ==== Sys2Proof/Laws/Chain.lean ====
section
/-! SUPPORT. The schedule and the carry chain in plain arithmetic, for `omega`. -/

namespace Sys2Proof.Machine

/-- A fact about every limb, one limb at a time. -/
theorem forall_limb {p : Fin 10 → Prop} (h0 : p 0) (h1 : p 1) (h2 : p 2) (h3 : p 3) (h4 : p 4) (h5 : p 5)
    (h6 : p 6) (h7 : p 7) (h8 : p 8) (h9 : p 9) : ∀ i, p i := by
  intro i
  fin_cases i <;> assumption

theorem wd_even : wd 0 = 26 ∧ wd 2 = 26 ∧ wd 4 = 26 ∧ wd 6 = 26 ∧ wd 8 = 26 := by decide

theorem wd_odd : wd 1 = 25 ∧ wd 3 = 25 ∧ wd 5 = 25 ∧ wd 7 = 25 ∧ wd 9 = 25 := by decide

theorem land_mask (x : Nat) (i : Fin 10) : x &&& mask i = x % 2 ^ wd i :=
  Nat.and_two_pow_sub_one_eq_mod x _

theorem total_eq_sum (g : Digits) : total g = ∑ i, g i := by
  simp [total, Fin.sum_univ_succ]
  ring

/-- R22, R23: the value of a vector, limb by limb. -/
theorem eval_eq (x : Digits) : eval x =
    x 0 + x 1 * 2 ^ 26 + x 2 * 2 ^ 51 + x 3 * 2 ^ 77 + x 4 * 2 ^ 102 + x 5 * 2 ^ 128 + x 6 * 2 ^ 153 +
      x 7 * 2 ^ 179 + x 8 * 2 ^ 204 + x 9 * 2 ^ 230 := by
  simp [eval, total, expo]

/-- R120, pass 1, limb by limb. -/
theorem passSum_rec (z : Digits) :
    passSum z 0 = z 0 ∧ passSum z 1 = z 1 + passSum z 0 / 2 ^ 26 ∧ passSum z 2 = z 2 + passSum z 1 / 2 ^ 25 ∧
    passSum z 3 = z 3 + passSum z 2 / 2 ^ 26 ∧ passSum z 4 = z 4 + passSum z 3 / 2 ^ 25 ∧
    passSum z 5 = z 5 + passSum z 4 / 2 ^ 26 ∧ passSum z 6 = z 6 + passSum z 5 / 2 ^ 25 ∧
    passSum z 7 = z 7 + passSum z 6 / 2 ^ 26 ∧ passSum z 8 = z 8 + passSum z 7 / 2 ^ 25 ∧
    passSum z 9 = z 9 + passSum z 8 / 2 ^ 26 := by
  have h : ∀ i, passSum z (i + 1) =
      z (Fin.ofNat 10 (i + 1)) + passSum z i / 2 ^ wd (Fin.ofNat 10 i) := fun i => by
    rw [passSum, Nat.shiftRight_eq_div_pow]
  exact ⟨rfl, h 0, h 1, h 2, h 3, h 4, h 5, h 6, h 7, h 8⟩

/-- R120, the fold and the repropagation, limb by limb. -/
theorem chain_limbs (z : Digits) :
    let c9 := passSum z 9 / 2 ^ 25
    let u0 := passSum z 0 % 2 ^ 26 + 19 * c9
    let u1 := passSum z 1 % 2 ^ 25 + u0 / 2 ^ 26
    chain z 0 = u0 % 2 ^ 26 ∧ chain z 1 = u1 % 2 ^ 25 ∧ chain z 2 = passSum z 2 % 2 ^ 26 + u1 / 2 ^ 25 ∧
    chain z 3 = passSum z 3 % 2 ^ 25 ∧ chain z 4 = passSum z 4 % 2 ^ 26 ∧ chain z 5 = passSum z 5 % 2 ^ 25 ∧
    chain z 6 = passSum z 6 % 2 ^ 26 ∧ chain z 7 = passSum z 7 % 2 ^ 25 ∧ chain z 8 = passSum z 8 % 2 ^ 26 ∧
    chain z 9 = passSum z 9 % 2 ^ 25 := by
  have a1 : (0x3FFFFFF : Nat) = 2 ^ 26 - 1 := rfl
  have a2 : (0x1FFFFFF : Nat) = 2 ^ 25 - 1 := rfl
  simp only [chain, land_mask, Nat.shiftRight_eq_div_pow, foldConst, a1, a2, Nat.and_two_pow_sub_one_eq_mod]
  exact ⟨rfl, rfl, rfl, rfl, rfl, rfl, rfl, rfl, rfl, rfl⟩

/-- What the chain does to the value: it takes `c9` times p away. -/
theorem chain_value (z : Digits) : eval (chain z) + passSum z 9 / 2 ^ 25 * (2 ^ 255 - 19) = eval z := by
  obtain ⟨e0, e1, e2, e3, e4, e5, e6, e7, e8, e9⟩ := chain_limbs z
  obtain ⟨p0, p1, p2, p3, p4, p5, p6, p7, p8, p9⟩ := passSum_rec z
  rw [eval_eq, eval_eq z, e0, e1, e2, e3, e4, e5, e6, e7, e8, e9, ← p0]
  clear e0 e1 e2 e3 e4 e5 e6 e7 e8 e9
  generalize passSum z 0 = s0 at *
  generalize passSum z 1 = s1 at *
  generalize passSum z 2 = s2 at *
  generalize passSum z 3 = s3 at *
  generalize passSum z 4 = s4 at *
  generalize passSum z 5 = s5 at *
  generalize passSum z 6 = s6 at *
  generalize passSum z 7 = s7 at *
  generalize passSum z 8 = s8 at *
  generalize passSum z 9 = s9 at *
  omega

/-- What the chain does to the limbs: all within their masks but limb 2, which may be 2^26. -/
theorem chain_bounds (z : Digits) (h : 19 * (passSum z 9 / 2 ^ 25) + (2 ^ 26 - 1) < 2 ^ 26 * (2 ^ 25 + 1)) :
    (∀ i, i ≠ 2 → chain z i ≤ mask i) ∧ chain z 2 ≤ 2 ^ 26 := by
  obtain ⟨e0, e1, e2, e3, e4, e5, e6, e7, e8, e9⟩ := chain_limbs z
  refine ⟨forall_limb ?_ ?_ ?_ ?_ ?_ ?_ ?_ ?_ ?_ ?_, by omega⟩ <;> simp only [mask, wd_even, wd_odd] <;>
    first | exact fun h => absurd rfl h | (intro _; omega)

/-! ### Bytes -/

/-- Byte `j` of the integer a list of bytes encodes is byte `j` of the list. -/
theorem leList_byte (l : List Byte) (j : Nat) (h : j < l.length) :
    leList l / 2 ^ (8 * j) % 256 = (l[j]).toNat := by
  induction l generalizing j with
  | nil => simp at h
  | cons b l ih =>
    have := b.isLt
    cases j with
    | zero => simp [leList]; omega
    | succ j =>
      simp only [leList, List.getElem_cons_succ]
      rw [Nat.mul_add, Nat.add_comm, Nat.pow_add, Nat.mul_comm (2 ^ (8 * j)), ← Nat.div_div_eq_div_mul,
        show (2 ^ 8 * leList l + b.toNat) / 2 ^ (8 * 1) = leList l by omega]
      exact ih j (by simpa using h)

theorem leList_lt (l : List Byte) : leList l < 2 ^ (8 * l.length) := by
  induction l with
  | nil => simp [leList]
  | cons b l ih =>
    have := b.isLt
    simp only [leList, List.length_cons]
    rw [Nat.mul_add, Nat.pow_add]
    omega

/-- The four bytes of a port word do not overlap (R57). -/
theorem wordOfBytes_toNat (b0 b1 b2 b3 : Byte) : (wordOfBytes b0 b1 b2 b3).toNat =
    b0.toNat + b1.toNat * 2 ^ 8 + b2.toNat * 2 ^ 16 + b3.toNat * 2 ^ 24 := by
  have := b0.isLt
  have := b1.isLt
  have := b2.isLt
  have := b3.isLt
  simp only [wordOfBytes, BitVec.toNat_ofNat]
  omega

/-- Byte `j` of what `to_bytes` packs (R155). -/
theorem packBytes_byte (c : Nat) (j : Nat) (hj : j < 32) : (packBytes c)[j].toNat = bits c (8 * j) 8 := by
  unfold packBytes
  rw [Vector.getElem_ofFn, BitVec.toNat_ofNat, Nat.shiftRight_eq_div_pow, show (0xFF : Nat) = 2 ^ 8 - 1 from rfl,
    Nat.and_two_pow_sub_one_eq_mod, Nat.mod_mod]
  rfl

end Sys2Proof.Machine
end

