-- ==== Sys2Proof/Laws/State.lean ====
section
/-! SUPPORT. One lemma per field of `State` and per update, so that no proof unfolds a record update. -/

namespace Sys2Proof.Machine

/-! ### `State.writeF` -/

@[simp] theorem State.writeF_f (s : State) (k : FIdx) (x : Limbs) : (s.writeF k x).f = s.f.set k.val (Vector.ofFn fun i => Slot.full x[i]) := rfl
@[simp] theorem State.writeF_b (s : State) (k : FIdx) (x : Limbs) : (s.writeF k x).b = s.b := rfl
@[simp] theorem State.writeF_w (s : State) (k : FIdx) (x : Limbs) : (s.writeF k x).w = s.w := rfl
@[simp] theorem State.writeF_err (s : State) (k : FIdx) (x : Limbs) : (s.writeF k x).err = s.err := rfl
@[simp] theorem State.writeF_cause (s : State) (k : FIdx) (x : Limbs) : (s.writeF k x).cause = s.cause := rfl
@[simp] theorem State.writeF_errcmd (s : State) (k : FIdx) (x : Limbs) : (s.writeF k x).errcmd = s.errcmd := rfl
@[simp] theorem State.writeF_ops (s : State) (k : FIdx) (x : Limbs) : (s.writeF k x).ops = s.ops := rfl
@[simp] theorem State.writeF_pc (s : State) (k : FIdx) (x : Limbs) : (s.writeF k x).pc = s.pc := rfl
@[simp] theorem State.writeF_reads (s : State) (k : FIdx) (x : Limbs) : (s.writeF k x).reads = s.reads := rfl
@[simp] theorem State.writeF_free (s : State) (k : FIdx) (x : Limbs) : (s.writeF k x).free = s.free := rfl

/-! ### `State.writeB` -/

@[simp] theorem State.writeB_f (s : State) (k : BIdx) (x : Buffer) : (s.writeB k x).f = s.f := rfl
@[simp] theorem State.writeB_b (s : State) (k : BIdx) (x : Buffer) : (s.writeB k x).b = s.b.set k.val (Vector.ofFn fun j => Slot.full x[j]) := rfl
@[simp] theorem State.writeB_w (s : State) (k : BIdx) (x : Buffer) : (s.writeB k x).w = s.w := rfl
@[simp] theorem State.writeB_err (s : State) (k : BIdx) (x : Buffer) : (s.writeB k x).err = s.err := rfl
@[simp] theorem State.writeB_cause (s : State) (k : BIdx) (x : Buffer) : (s.writeB k x).cause = s.cause := rfl
@[simp] theorem State.writeB_errcmd (s : State) (k : BIdx) (x : Buffer) : (s.writeB k x).errcmd = s.errcmd := rfl
@[simp] theorem State.writeB_ops (s : State) (k : BIdx) (x : Buffer) : (s.writeB k x).ops = s.ops := rfl
@[simp] theorem State.writeB_pc (s : State) (k : BIdx) (x : Buffer) : (s.writeB k x).pc = s.pc := rfl
@[simp] theorem State.writeB_reads (s : State) (k : BIdx) (x : Buffer) : (s.writeB k x).reads = s.reads := rfl
@[simp] theorem State.writeB_free (s : State) (k : BIdx) (x : Buffer) : (s.writeB k x).free = s.free := rfl

/-! ### `State.writeW` -/

@[simp] theorem State.writeW_f (s : State) (k : WIdx) (v : Word) : (s.writeW k v).f = s.f := rfl
@[simp] theorem State.writeW_b (s : State) (k : WIdx) (v : Word) : (s.writeW k v).b = s.b := rfl
@[simp] theorem State.writeW_w (s : State) (k : WIdx) (v : Word) : (s.writeW k v).w = s.w.set k.val (Slot.full v) := rfl
@[simp] theorem State.writeW_err (s : State) (k : WIdx) (v : Word) : (s.writeW k v).err = s.err := rfl
@[simp] theorem State.writeW_cause (s : State) (k : WIdx) (v : Word) : (s.writeW k v).cause = s.cause := rfl
@[simp] theorem State.writeW_errcmd (s : State) (k : WIdx) (v : Word) : (s.writeW k v).errcmd = s.errcmd := rfl
@[simp] theorem State.writeW_ops (s : State) (k : WIdx) (v : Word) : (s.writeW k v).ops = s.ops := rfl
@[simp] theorem State.writeW_pc (s : State) (k : WIdx) (v : Word) : (s.writeW k v).pc = s.pc := rfl
@[simp] theorem State.writeW_reads (s : State) (k : WIdx) (v : Word) : (s.writeW k v).reads = s.reads := rfl
@[simp] theorem State.writeW_free (s : State) (k : WIdx) (v : Word) : (s.writeW k v).free = s.free := rfl

/-! ### `State.writeLimb` -/

@[simp] theorem State.writeLimb_b (s : State) (k : FIdx) (i : Fin 10) (v : Word) : (s.writeLimb k i v).b = s.b := rfl
@[simp] theorem State.writeLimb_w (s : State) (k : FIdx) (i : Fin 10) (v : Word) : (s.writeLimb k i v).w = s.w := rfl
@[simp] theorem State.writeLimb_err (s : State) (k : FIdx) (i : Fin 10) (v : Word) : (s.writeLimb k i v).err = s.err := rfl
@[simp] theorem State.writeLimb_cause (s : State) (k : FIdx) (i : Fin 10) (v : Word) : (s.writeLimb k i v).cause = s.cause := rfl
@[simp] theorem State.writeLimb_errcmd (s : State) (k : FIdx) (i : Fin 10) (v : Word) : (s.writeLimb k i v).errcmd = s.errcmd := rfl
@[simp] theorem State.writeLimb_ops (s : State) (k : FIdx) (i : Fin 10) (v : Word) : (s.writeLimb k i v).ops = s.ops := rfl
@[simp] theorem State.writeLimb_pc (s : State) (k : FIdx) (i : Fin 10) (v : Word) : (s.writeLimb k i v).pc = s.pc := rfl
@[simp] theorem State.writeLimb_reads (s : State) (k : FIdx) (i : Fin 10) (v : Word) : (s.writeLimb k i v).reads = s.reads := rfl
@[simp] theorem State.writeLimb_free (s : State) (k : FIdx) (i : Fin 10) (v : Word) : (s.writeLimb k i v).free = s.free := rfl

/-! ### `State.writeBufWord` -/

@[simp] theorem State.writeBufWord_f (s : State) (k : BIdx) (m : Fin 8) (v : Word) : (s.writeBufWord k m v).f = s.f := rfl
@[simp] theorem State.writeBufWord_w (s : State) (k : BIdx) (m : Fin 8) (v : Word) : (s.writeBufWord k m v).w = s.w := rfl
@[simp] theorem State.writeBufWord_err (s : State) (k : BIdx) (m : Fin 8) (v : Word) : (s.writeBufWord k m v).err = s.err := rfl
@[simp] theorem State.writeBufWord_cause (s : State) (k : BIdx) (m : Fin 8) (v : Word) : (s.writeBufWord k m v).cause = s.cause := rfl
@[simp] theorem State.writeBufWord_errcmd (s : State) (k : BIdx) (m : Fin 8) (v : Word) : (s.writeBufWord k m v).errcmd = s.errcmd := rfl
@[simp] theorem State.writeBufWord_ops (s : State) (k : BIdx) (m : Fin 8) (v : Word) : (s.writeBufWord k m v).ops = s.ops := rfl
@[simp] theorem State.writeBufWord_pc (s : State) (k : BIdx) (m : Fin 8) (v : Word) : (s.writeBufWord k m v).pc = s.pc := rfl
@[simp] theorem State.writeBufWord_reads (s : State) (k : BIdx) (m : Fin 8) (v : Word) : (s.writeBufWord k m v).reads = s.reads := rfl
@[simp] theorem State.writeBufWord_free (s : State) (k : BIdx) (m : Fin 8) (v : Word) : (s.writeBufWord k m v).free = s.free := rfl

/-! ### `State.raiseFault` -/

@[simp] theorem State.raiseFault_f (s : State) (k : CommandFault) (w : Word) : (s.raiseFault k w).f = s.f := rfl
@[simp] theorem State.raiseFault_b (s : State) (k : CommandFault) (w : Word) : (s.raiseFault k w).b = s.b := rfl
@[simp] theorem State.raiseFault_w (s : State) (k : CommandFault) (w : Word) : (s.raiseFault k w).w = s.w := rfl
@[simp] theorem State.raiseFault_err (s : State) (k : CommandFault) (w : Word) : (s.raiseFault k w).err = true := rfl
@[simp] theorem State.raiseFault_cause (s : State) (k : CommandFault) (w : Word) : (s.raiseFault k w).cause = k.code := rfl
@[simp] theorem State.raiseFault_errcmd (s : State) (k : CommandFault) (w : Word) : (s.raiseFault k w).errcmd = w := rfl
@[simp] theorem State.raiseFault_ops (s : State) (k : CommandFault) (w : Word) : (s.raiseFault k w).ops = s.ops := rfl
@[simp] theorem State.raiseFault_pc (s : State) (k : CommandFault) (w : Word) : (s.raiseFault k w).pc = s.pc := rfl
@[simp] theorem State.raiseFault_reads (s : State) (k : CommandFault) (w : Word) : (s.raiseFault k w).reads = s.reads := rfl
@[simp] theorem State.raiseFault_free (s : State) (k : CommandFault) (w : Word) : (s.raiseFault k w).free = s.free := rfl

/-! ### `State.engineReset` -/

@[simp] theorem State.engineReset_f (s : State) : (s.engineReset).f = List.replicate s.f.length FReg.blank := rfl
@[simp] theorem State.engineReset_b (s : State) : (s.engineReset).b = List.replicate s.b.length BReg.blank := rfl
@[simp] theorem State.engineReset_w (s : State) : (s.engineReset).w = List.replicate s.w.length WReg.blank := rfl
@[simp] theorem State.engineReset_err (s : State) : (s.engineReset).err = false := rfl
@[simp] theorem State.engineReset_cause (s : State) : (s.engineReset).cause = 0 := rfl
@[simp] theorem State.engineReset_errcmd (s : State) : (s.engineReset).errcmd = 0 := rfl
@[simp] theorem State.engineReset_ops (s : State) : (s.engineReset).ops = s.ops := rfl
@[simp] theorem State.engineReset_pc (s : State) : (s.engineReset).pc = s.pc := rfl
@[simp] theorem State.engineReset_reads (s : State) : (s.engineReset).reads = s.reads := rfl
@[simp] theorem State.engineReset_free (s : State) : (s.engineReset).free = s.free := rfl

/-! ### `State.retire` -/

@[simp] theorem State.retire_f (s : State) : (s.retire).f = s.f := rfl
@[simp] theorem State.retire_b (s : State) : (s.retire).b = s.b := rfl
@[simp] theorem State.retire_w (s : State) : (s.retire).w = s.w := rfl
@[simp] theorem State.retire_err (s : State) : (s.retire).err = s.err := rfl
@[simp] theorem State.retire_cause (s : State) : (s.retire).cause = s.cause := rfl
@[simp] theorem State.retire_errcmd (s : State) : (s.retire).errcmd = s.errcmd := rfl
@[simp] theorem State.retire_ops (s : State) : (s.retire).ops = s.ops := rfl
@[simp] theorem State.retire_pc (s : State) : (s.retire).pc = s.pc := rfl
@[simp] theorem State.retire_reads (s : State) : (s.retire).reads = s.reads := rfl
@[simp] theorem State.retire_free (s : State) : (s.retire).free = s.free + 1 := rfl

/-! ### `State.pushRead` -/

@[simp] theorem State.pushRead_f (s : State) (v : Word) : (s.pushRead v).f = s.f := rfl
@[simp] theorem State.pushRead_b (s : State) (v : Word) : (s.pushRead v).b = s.b := rfl
@[simp] theorem State.pushRead_w (s : State) (v : Word) : (s.pushRead v).w = s.w := rfl
@[simp] theorem State.pushRead_err (s : State) (v : Word) : (s.pushRead v).err = s.err := rfl
@[simp] theorem State.pushRead_cause (s : State) (v : Word) : (s.pushRead v).cause = s.cause := rfl
@[simp] theorem State.pushRead_errcmd (s : State) (v : Word) : (s.pushRead v).errcmd = s.errcmd := rfl
@[simp] theorem State.pushRead_ops (s : State) (v : Word) : (s.pushRead v).ops = s.ops := rfl
@[simp] theorem State.pushRead_pc (s : State) (v : Word) : (s.pushRead v).pc = s.pc := rfl
@[simp] theorem State.pushRead_reads (s : State) (v : Word) : (s.pushRead v).reads = v :: s.reads := rfl
@[simp] theorem State.pushRead_free (s : State) (v : Word) : (s.pushRead v).free = s.free + 1 := rfl

/-! ### `State.take` -/

@[simp] theorem State.take_f (s : State) (rest : List HostOp) : (s.take rest).f = s.f := rfl
@[simp] theorem State.take_b (s : State) (rest : List HostOp) : (s.take rest).b = s.b := rfl
@[simp] theorem State.take_w (s : State) (rest : List HostOp) : (s.take rest).w = s.w := rfl
@[simp] theorem State.take_err (s : State) (rest : List HostOp) : (s.take rest).err = s.err := rfl
@[simp] theorem State.take_cause (s : State) (rest : List HostOp) : (s.take rest).cause = s.cause := rfl
@[simp] theorem State.take_errcmd (s : State) (rest : List HostOp) : (s.take rest).errcmd = s.errcmd := rfl
@[simp] theorem State.take_ops (s : State) (rest : List HostOp) : (s.take rest).ops = rest := rfl
@[simp] theorem State.take_pc (s : State) (rest : List HostOp) : (s.take rest).pc = s.pc + 1 := rfl
@[simp] theorem State.take_reads (s : State) (rest : List HostOp) : (s.take rest).reads = s.reads := rfl
@[simp] theorem State.take_free (s : State) (rest : List HostOp) : (s.take rest).free = s.free := rfl

/-! ### `State.withCommand` -/

@[simp] theorem State.withCommand_f (s : State) (w : Word) : (s.withCommand w).f = s.f := rfl
@[simp] theorem State.withCommand_b (s : State) (w : Word) : (s.withCommand w).b = s.b := rfl
@[simp] theorem State.withCommand_w (s : State) (w : Word) : (s.withCommand w).w = s.w := rfl
@[simp] theorem State.withCommand_err (s : State) (w : Word) : (s.withCommand w).err = s.err := rfl
@[simp] theorem State.withCommand_cause (s : State) (w : Word) : (s.withCommand w).cause = s.cause := rfl
@[simp] theorem State.withCommand_errcmd (s : State) (w : Word) : (s.withCommand w).errcmd = s.errcmd := rfl
@[simp] theorem State.withCommand_ops (s : State) (w : Word) : (s.withCommand w).ops = .write (offsetAt 0x000) w :: s.ops := rfl
@[simp] theorem State.withCommand_pc (s : State) (w : Word) : (s.withCommand w).pc = s.pc := rfl
@[simp] theorem State.withCommand_reads (s : State) (w : Word) : (s.withCommand w).reads = s.reads := rfl
@[simp] theorem State.withCommand_free (s : State) (w : Word) : (s.withCommand w).free = s.free := rfl

/-! ### The register counts, which nothing changes -/

@[simp] theorem State.writeF_counts (s : State) (k : FIdx) (x : Limbs) : (s.writeF k x).counts = s.counts := by simp [State.counts]
@[simp] theorem State.writeB_counts (s : State) (k : BIdx) (x : Buffer) : (s.writeB k x).counts = s.counts := by simp [State.counts]
@[simp] theorem State.writeW_counts (s : State) (k : WIdx) (v : Word) : (s.writeW k v).counts = s.counts := by simp [State.counts]
@[simp] theorem State.writeLimb_counts (s : State) (k : FIdx) (i : Fin 10) (v : Word) : (s.writeLimb k i v).counts = s.counts := by simp [State.counts, State.writeLimb]
@[simp] theorem State.writeBufWord_counts (s : State) (k : BIdx) (m : Fin 8) (v : Word) : (s.writeBufWord k m v).counts = s.counts := by simp [State.counts, State.writeBufWord]
@[simp] theorem State.raiseFault_counts (s : State) (k : CommandFault) (w : Word) : (s.raiseFault k w).counts = s.counts := by simp [State.counts]
@[simp] theorem State.engineReset_counts (s : State) : (s.engineReset).counts = s.counts := by simp [State.counts]
@[simp] theorem State.retire_counts (s : State) : (s.retire).counts = s.counts := by simp [State.counts]
@[simp] theorem State.pushRead_counts (s : State) (v : Word) : (s.pushRead v).counts = s.counts := by simp [State.counts]
@[simp] theorem State.take_counts (s : State) (rest : List HostOp) : (s.take rest).counts = s.counts := by simp [State.counts]
@[simp] theorem State.withCommand_counts (s : State) (w : Word) : (s.withCommand w).counts = s.counts := by simp [State.counts]

end Sys2Proof.Machine
end

