-- ==== Sys2Proof/Laws/Registers.lean ====
section
/-! SUPPORT. The register files: what a read returns after a write, and what a write leaves alone. -/

namespace Sys2Proof.Machine

@[simp] theorem Slot.read_full {α : Type} (u v : α) : (Slot.full v).read u = v := rfl

@[simp] theorem Slot.full_written {α : Type} (v : α) : (Slot.full v).written = true := rfl

@[simp] theorem Slot.canon_full {α : Type} [Zero α] (v : α) : Slot.Canon (Slot.full v) := by
  simp [Slot.Canon, Slot.full]

@[simp] theorem Slot.read_of_unwritten {α : Type} (u : α) {c : Slot α} (h : c.written = false) : c.read u = u := by
  simp [Slot.read, h]

@[simp] theorem Slot.read_of_written {α : Type} (u : α) {c : Slot α} (h : c.written = true) :
    c.read u = c.value := by
  simp [Slot.read, h]

/-! ### The cells of a register depend on its file alone -/

theorem State.limbCell_congr {s t : State} {k : FIdx} (hf : t.f[k.val]? = s.f[k.val]?) (i : Fin 10) :
    t.limbCell k i = s.limbCell k i := by
  simp [State.limbCell, List.getD_eq_getElem?_getD, hf]

theorem State.byteCell_congr {s t : State} {k : BIdx} (hb : t.b[k.val]? = s.b[k.val]?) (j : Fin 32) :
    t.byteCell k j = s.byteCell k j := by
  simp [State.byteCell, List.getD_eq_getElem?_getD, hb]

theorem State.wordCell_congr {s t : State} {k : WIdx} (hw : t.w[k.val]? = s.w[k.val]?) :
    t.wordCell k = s.wordCell k := by
  simp [State.wordCell, List.getD_eq_getElem?_getD, hw]

/-! ### Cells after a write -/

theorem State.limbCell_writeF (s : State) {k : FIdx} (x : Limbs) (hk : k.val < s.f.length) (i : Fin 10) :
    (s.writeF k x).limbCell k i = Slot.full x[i] := by
  simp [State.limbCell, List.getD_eq_getElem?_getD, List.getElem?_set_self hk]

theorem State.byteCell_writeB (s : State) {k : BIdx} (x : Buffer) (hk : k.val < s.b.length) (j : Fin 32) :
    (s.writeB k x).byteCell k j = Slot.full x[j] := by
  simp [State.byteCell, List.getD_eq_getElem?_getD, List.getElem?_set_self hk]

theorem State.wordCell_writeW (s : State) {k : WIdx} (v : Word) (hk : k.val < s.w.length) :
    (s.writeW k v).wordCell k = Slot.full v := by
  simp [State.wordCell, List.getD_eq_getElem?_getD, List.getElem?_set_self hk]

@[simp] theorem State.limbCell_retire (s : State) (k : FIdx) (i : Fin 10) :
    s.retire.limbCell k i = s.limbCell k i := rfl

@[simp] theorem State.byteCell_retire (s : State) (k : BIdx) (j : Fin 32) :
    s.retire.byteCell k j = s.byteCell k j := rfl

@[simp] theorem State.wordCell_retire (s : State) (k : WIdx) : s.retire.wordCell k = s.wordCell k := rfl

/-! ### Reading a register through its cells -/

@[simp] theorem State.getElem_readF (s : State) (k : FIdx) (i : Nat) (hi : i < 10) :
    (s.readF k)[i] = s.readLimb k ⟨i, hi⟩ := by
  simp [State.readF]

@[simp] theorem State.getElem_readB (s : State) (k : BIdx) (j : Nat) (hj : j < 32) :
    (s.readB k)[j] = s.readByte k ⟨j, hj⟩ := by
  simp [State.readB]

theorem State.readLimb_congr {s t : State} {k : FIdx} (hf : t.f[k.val]? = s.f[k.val]?)
    (hfree : t.free = s.free) (i : Fin 10) : t.readLimb k i = s.readLimb k i := by
  simp [State.readLimb, State.limbCell_congr hf, hfree]

theorem State.readByte_congr {s t : State} {k : BIdx} (hb : t.b[k.val]? = s.b[k.val]?)
    (hfree : t.free = s.free) (j : Fin 32) : t.readByte k j = s.readByte k j := by
  simp [State.readByte, State.byteCell_congr hb, hfree]

theorem State.readF_congr {s t : State} {k : FIdx} (hf : t.f[k.val]? = s.f[k.val]?)
    (hfree : t.free = s.free) : t.readF k = s.readF k := by
  simp [State.readF, State.readLimb_congr hf hfree]

theorem State.readB_congr {s t : State} {k : BIdx} (hb : t.b[k.val]? = s.b[k.val]?)
    (hfree : t.free = s.free) : t.readB k = s.readB k := by
  simp [State.readB, State.readByte_congr hb hfree]

theorem State.readW_congr {s t : State} {k : WIdx} (hw : t.w[k.val]? = s.w[k.val]?)
    (hfree : t.free = s.free) : t.readW k = s.readW k := by
  simp [State.readW, State.wordCell_congr hw, hfree]

/-! ### Read after write -/

theorem State.readLimb_writeF (s : State) {k : FIdx} (x : Limbs) (hk : k.val < s.f.length) (i : Fin 10) :
    (s.writeF k x).readLimb k i = x[i] := by
  simp [State.readLimb, s.limbCell_writeF x hk]

theorem State.readF_writeF (s : State) {k : FIdx} (x : Limbs) (hk : k.val < s.f.length) :
    (s.writeF k x).readF k = x := by
  ext i hi
  simp [s.readLimb_writeF x hk]

theorem State.readB_writeB (s : State) {k : BIdx} (x : Buffer) (hk : k.val < s.b.length) :
    (s.writeB k x).readB k = x := by
  ext j hj
  simp [State.readB, State.readByte, s.byteCell_writeB x hk]

theorem State.readW_writeW (s : State) {k : WIdx} (v : Word) (hk : k.val < s.w.length) :
    (s.writeW k v).readW k = v := by
  simp [State.readW, s.wordCell_writeW v hk]

theorem State.readF_writeF_ne (s : State) {k j : FIdx} (x : Limbs) (h : k ≠ j) :
    (s.writeF k x).readF j = s.readF j :=
  State.readF_congr (by simp [List.getElem?_set_ne (Fin.val_ne_of_ne h)]) rfl

theorem State.readB_writeB_ne (s : State) {k j : BIdx} (x : Buffer) (h : k ≠ j) :
    (s.writeB k x).readB j = s.readB j :=
  State.readB_congr (by simp [List.getElem?_set_ne (Fin.val_ne_of_ne h)]) rfl

theorem State.readW_writeW_ne (s : State) {k j : WIdx} (v : Word) (h : k ≠ j) :
    (s.writeW k v).readW j = s.readW j :=
  State.readW_congr (by simp [List.getElem?_set_ne (Fin.val_ne_of_ne h)]) rfl

@[simp] theorem State.readF_writeB (s : State) (k : BIdx) (x : Buffer) (j : FIdx) :
    (s.writeB k x).readF j = s.readF j := rfl

@[simp] theorem State.readF_writeW (s : State) (k : WIdx) (v : Word) (j : FIdx) :
    (s.writeW k v).readF j = s.readF j := rfl

@[simp] theorem State.readB_writeF (s : State) (k : FIdx) (x : Limbs) (j : BIdx) :
    (s.writeF k x).readB j = s.readB j := rfl

@[simp] theorem State.readB_writeW (s : State) (k : WIdx) (v : Word) (j : BIdx) :
    (s.writeW k v).readB j = s.readB j := rfl

@[simp] theorem State.readW_writeF (s : State) (k : FIdx) (x : Limbs) (j : WIdx) :
    (s.writeF k x).readW j = s.readW j := rfl

@[simp] theorem State.readW_writeB (s : State) (k : BIdx) (x : Buffer) (j : WIdx) :
    (s.writeB k x).readW j = s.readW j := rfl

/-! ### Written registers do not see the free counter (R43 is about the others) -/

theorem State.readLimb_of_written {s t : State} {k : FIdx} {i : Fin 10} (hc : t.limbCell k i = s.limbCell k i)
    (hw : (s.limbCell k i).written = true) : t.readLimb k i = s.readLimb k i := by
  simp [State.readLimb, hc, hw]

theorem State.readByte_of_written {s t : State} {k : BIdx} {j : Fin 32} (hc : t.byteCell k j = s.byteCell k j)
    (hw : (s.byteCell k j).written = true) : t.readByte k j = s.readByte k j := by
  simp [State.readByte, hc, hw]

theorem State.readW_of_written {s t : State} {k : WIdx} (hc : t.wordCell k = s.wordCell k)
    (hw : (s.wordCell k).written = true) : t.readW k = s.readW k := by
  simp [State.readW, hc, hw]

theorem State.written_F (s : State) (k : FIdx) :
    s.written ⟨.F, k⟩ = true ↔ ∀ i : Fin 10, (s.limbCell k i).written = true := by
  simp [State.written, State.limbCell, Fin.forall_iff]

theorem State.written_B (s : State) (k : BIdx) :
    s.written ⟨.B, k⟩ = true ↔ ∀ j : Fin 32, (s.byteCell k j).written = true := by
  simp [State.written, State.byteCell, Fin.forall_iff]

theorem State.written_W (s : State) (k : WIdx) : s.written ⟨.W, k⟩ = true ↔ (s.wordCell k).written = true := Iff.rfl

theorem State.readF_of_written {s t : State} {k : FIdx} (hf : t.f[k.val]? = s.f[k.val]?)
    (hw : s.written ⟨.F, k⟩ = true) : t.readF k = s.readF k := by
  ext i hi
  simp [State.readLimb_of_written (State.limbCell_congr hf ⟨i, hi⟩) ((s.written_F k).1 hw ⟨i, hi⟩)]

theorem State.readB_of_written {s t : State} {k : BIdx} (hb : t.b[k.val]? = s.b[k.val]?)
    (hw : s.written ⟨.B, k⟩ = true) : t.readB k = s.readB k := by
  ext j hj
  simp [State.readByte_of_written (State.byteCell_congr hb ⟨j, hj⟩) ((s.written_B k).1 hw ⟨j, hj⟩)]

/-- Right after a reset no cell is written (R42). -/
theorem State.limbCell_engineReset (s : State) (k : FIdx) (i : Fin 10) :
    (s.engineReset.limbCell k i).written = false := by
  simp only [State.limbCell, State.engineReset, List.getD_eq_getElem?_getD, List.getElem?_replicate]
  split <;> simp [FReg.blank]

theorem State.byteCell_engineReset (s : State) (k : BIdx) (j : Fin 32) :
    (s.engineReset.byteCell k j).written = false := by
  simp only [State.byteCell, State.engineReset, List.getD_eq_getElem?_getD, List.getElem?_replicate]
  split <;> simp [BReg.blank]

theorem State.wordCell_engineReset (s : State) (k : WIdx) : (s.engineReset.wordCell k).written = false := by
  simp only [State.wordCell, State.engineReset, List.getD_eq_getElem?_getD, List.getElem?_replicate]
  split <;> simp [WReg.blank]

/-- After a command's write the register reads the same at every later point, until it is written again. -/
theorem State.readF_retire_writeF (s : State) {k : FIdx} (x : Limbs) (hk : k.val < s.f.length) :
    ((s.writeF k x).retire).readF k = x := by
  ext i hi
  simp [State.readLimb, s.limbCell_writeF x hk]

theorem State.readB_retire_writeB (s : State) {k : BIdx} (x : Buffer) (hk : k.val < s.b.length) :
    ((s.writeB k x).retire).readB k = x := by
  ext j hj
  simp [State.readByte, s.byteCell_writeB x hk]

theorem State.readW_retire_writeW (s : State) {k : WIdx} (v : Word) (hk : k.val < s.w.length) :
    ((s.writeW k v).retire).readW k = v := by
  simp [State.readW, s.wordCell_writeW v hk]

theorem State.written_writeF (s : State) {k : FIdx} (x : Limbs) (hk : k.val < s.f.length) :
    ((s.writeF k x).retire).written ⟨.F, k⟩ = true := by
  simp [State.written, List.getD_eq_getElem?_getD, List.getElem?_set_self hk]

theorem State.written_writeB (s : State) {k : BIdx} (x : Buffer) (hk : k.val < s.b.length) :
    ((s.writeB k x).retire).written ⟨.B, k⟩ = true := by
  simp [State.written, List.getD_eq_getElem?_getD, List.getElem?_set_self hk]

theorem State.written_writeW (s : State) {k : WIdx} (v : Word) (hk : k.val < s.w.length) :
    ((s.writeW k v).retire).written ⟨.W, k⟩ = true := by
  simp [State.written, List.getD_eq_getElem?_getD, List.getElem?_set_self hk]

/-! ### What a write changes -/

theorem SameControl.refl (s : State) : SameControl s s := ⟨rfl, rfl, rfl, rfl, rfl, rfl⟩

theorem OnlyChanges.writeF (s : State) (k : FIdx) (x : Limbs) : OnlyChanges ⟨.F, k⟩ s (s.writeF k x) :=
  { control := ⟨rfl, rfl, rfl, rfl, rfl, rfl⟩
    counts := by simp
    f := fun j hj => by
      have : k.val ≠ j := fun h => hj ⟨rfl, h⟩
      simp [List.getElem?_set_ne this]
    b := fun _ _ => rfl
    w := fun _ _ => rfl }

theorem OnlyChanges.writeB (s : State) (k : BIdx) (x : Buffer) : OnlyChanges ⟨.B, k⟩ s (s.writeB k x) :=
  { control := ⟨rfl, rfl, rfl, rfl, rfl, rfl⟩
    counts := by simp
    f := fun _ _ => rfl
    b := fun j hj => by
      have : k.val ≠ j := fun h => hj ⟨rfl, h⟩
      simp [List.getElem?_set_ne this]
    w := fun _ _ => rfl }

theorem OnlyChanges.writeW (s : State) (k : WIdx) (v : Word) : OnlyChanges ⟨.W, k⟩ s (s.writeW k v) :=
  { control := ⟨rfl, rfl, rfl, rfl, rfl, rfl⟩
    counts := by simp
    f := fun _ _ => rfl
    b := fun _ _ => rfl
    w := fun j hj => by
      have : k.val ≠ j := fun h => hj ⟨rfl, h⟩
      simp [List.getElem?_set_ne this] }

theorem OnlyChanges.writeLimb (s : State) (k : FIdx) (i : Fin 10) (v : Word) :
    OnlyChanges ⟨.F, k⟩ s (s.writeLimb k i v) :=
  { control := ⟨rfl, rfl, rfl, rfl, rfl, rfl⟩
    counts := by simp
    f := fun j hj => by
      have : k.val ≠ j := fun h => hj ⟨rfl, h⟩
      simp [State.writeLimb, List.getElem?_set_ne this]
    b := fun _ _ => rfl
    w := fun _ _ => rfl }

theorem OnlyChanges.writeBufWord (s : State) (k : BIdx) (m : Fin 8) (v : Word) :
    OnlyChanges ⟨.B, k⟩ s (s.writeBufWord k m v) :=
  { control := ⟨rfl, rfl, rfl, rfl, rfl, rfl⟩
    counts := by simp
    f := fun _ _ => rfl
    b := fun j hj => by
      have : k.val ≠ j := fun h => hj ⟨rfl, h⟩
      simp [State.writeBufWord, List.getElem?_set_ne this]
    w := fun _ _ => rfl }

theorem OnlyChanges.retire {r : Reg} {s t : State} (h : OnlyChanges r s t) : OnlyChanges r s t.retire :=
  { control := ⟨h.control.err, h.control.cause, h.control.errcmd, h.control.ops, h.control.pc, h.control.reads⟩
    counts := by simpa using h.counts
    f := h.f
    b := h.b
    w := h.w }

/-! ### Limbs as numbers -/

@[simp] theorem digits_readF (s : State) (k : FIdx) (i : Fin 10) :
    digits (s.readF k) i = (s.readLimb k i).toNat := by
  simp [digits]

/-- Numbers below 2^32 are stored exactly (R115). -/
theorem digits_ofDigits {z : Digits} (h : ∀ i, z i < 2 ^ 32) : digits (ofDigits z) = z := by
  funext i
  simpa [digits, ofDigits] using h i

theorem ofDigits_digits (x : Limbs) : ofDigits (digits x) = x := by
  ext i hi
  simp [digits, ofDigits]

end Sys2Proof.Machine
end

