-- ==== Sys2Proof/Laws/Form.lean ====
section
/-! SUPPORT. The checks on the form of a command: the machine's table-driven form and WellFormed's agree. -/

namespace Sys2Proof.Machine

/-- R89 step 3, both ways of writing it. -/
theorem any_outOfRange (c : Counts) (i : Instr) :
    (regsOf i).any (fun r => decide (countOf c r.file ≤ r.idx.val)) = !i.inRange c := by
  rw [Bool.eq_iff_iff]
  cases i <;> simp [regsOf, destOf, sourcesOf, countOf, Instr.inRange] <;> grind

/-- R89 step 4, both ways of writing it. -/
theorem any_aliased (i : Instr) : (sourcesOf i).any (· == destOf i) = !i.noAlias := by
  rw [Bool.eq_iff_iff]
  cases i <;> simp [destOf, sourcesOf, Instr.noAlias] <;> grind

/-- Everything `formFault` can answer. -/
theorem formFault_cases (c : Counts) (i : Instr) :
    (i.inRange c = false ∧ formFault c i = some .regRange) ∨
    (i.inRange c = true ∧ i.noAlias = false ∧ formFault c i = some .aliased) ∨
    (i.wf c = true ∧ formFault c i = none) := by
  unfold formFault
  rw [any_outOfRange, any_aliased]
  cases hr : i.inRange c <;> cases ha : i.noAlias <;> simp [Instr.wf, hr, ha]

theorem formFault_eq_none (c : Counts) (i : Instr) : formFault c i = none ↔ i.wf c = true := by
  rcases formFault_cases c i with ⟨h, e⟩ | ⟨h, h', e⟩ | ⟨h, e⟩ <;> simp_all [Instr.wf]

end Sys2Proof.Machine
end

