-- ==== Sys2Proof/Laws/Command.lean ====
section
/-! SUPPORT. Everything a command can do: the cases of its prologue (R89) and, when it retires, one write
of its destination register. -/

namespace Sys2Proof.Machine

/-- Everything `State.perform` can answer. -/
theorem State.perform_cases (s : State) (i : Instr) (e : State → State) :
    (s.err = true ∧ s.perform i e = s) ∨
    (s.err = false ∧ i.inRange s.counts = false ∧ s.perform i e = s.raiseFault .regRange (encode i)) ∨
    (s.err = false ∧ i.inRange s.counts = true ∧ i.noAlias = false ∧
      s.perform i e = s.raiseFault .aliased (encode i)) ∨
    (s.err = false ∧ i.wf s.counts = true ∧ s.perform i e = (e s).retire) := by
  unfold State.perform
  cases hs : s.err
  · rcases formFault_cases s.counts i with ⟨h, f⟩ | ⟨h, h', f⟩ | ⟨h, f⟩ <;> simp_all
  · simp

theorem State.perform_halted {s : State} (h : s.err = true) (i : Instr) (e : State → State) :
    s.perform i e = s := by
  simp [State.perform, h]

/-- A command whose form is accepted retires with its effect (R89 step 5). -/
theorem State.perform_wf {s : State} {i : Instr} (h : s.err = false) (hw : i.wf s.counts = true)
    (e : State → State) : s.perform i e = (e s).retire := by
  simp [State.perform, h, (formFault_eq_none s.counts i).2 hw]

/-- `t` is `s` with one register written, whatever the value. -/
def WritesReg (r : Reg) (s t : State) : Prop :=
  match r.file with
  | .F => ∃ x, t = s.writeF r.idx x
  | .B => ∃ x, t = s.writeB r.idx x
  | .W => ∃ v, t = s.writeW r.idx v

theorem WritesReg.onlyChanges {r : Reg} {s t : State} (h : WritesReg r s t) : OnlyChanges r s t := by
  obtain ⟨file, idx⟩ := r
  cases file <;> obtain ⟨x, rfl⟩ := h
  · exact OnlyChanges.writeF s idx x
  · exact OnlyChanges.writeB s idx x
  · exact OnlyChanges.writeW s idx x

/-- Every meaning is the prologue around one write of the command's destination. -/
theorem exec_shape (i : Instr) (s : State) :
    ∃ e : State → State, exec i s = .next (s.perform i e) ∧ ∀ u, WritesReg (destOf i) u (e u) := by
  cases i <;> exact ⟨_, rfl, fun _ => ⟨_, rfl⟩⟩

/-- Everything `exec` can answer. -/
theorem exec_cases (i : Instr) (s : State) :
    (s.err = true ∧ exec i s = .next s) ∨
    (s.err = false ∧ i.inRange s.counts = false ∧ exec i s = .next (s.raiseFault .regRange (encode i))) ∨
    (s.err = false ∧ i.inRange s.counts = true ∧ i.noAlias = false ∧
      exec i s = .next (s.raiseFault .aliased (encode i))) ∨
    (s.err = false ∧ i.wf s.counts = true ∧
      ∃ u, WritesReg (destOf i) s u ∧ exec i s = .next u.retire) := by
  obtain ⟨e, he, hd⟩ := exec_shape i s
  rw [he]
  rcases s.perform_cases i e with ⟨h, q⟩ | ⟨h, h', q⟩ | ⟨h, h', h'', q⟩ | ⟨h, h', q⟩
  · exact .inl ⟨h, by rw [q]⟩
  · exact .inr (.inl ⟨h, h', by rw [q]⟩)
  · exact .inr (.inr (.inl ⟨h, h', h'', by rw [q]⟩))
  · exact .inr (.inr (.inr ⟨h, h', e s, hd s, by rw [q]⟩))

end Sys2Proof.Machine
end

