-- ==== Sys2Proof/Laws/Words.lean ====
section
/-! SUPPORT. Command words: packing and unpacking fields, and what the three masks of the opcode map test. -/

namespace Sys2Proof

/-- The fields of a command word do not overlap (R81). -/
theorem pack_toNat (op : Nat) (rd ra rb rc : Fin 16) (h : op < 256) :
    (pack op rd ra rb rc).toNat =
      op + rd.val * 2 ^ 8 + ra.val * 2 ^ 12 + rb.val * 2 ^ 16 + rc.val * 2 ^ 20 := by
  simp only [pack, BitVec.toNat_ofNat]
  omega

theorem fields_pack (op : Nat) (rd ra rb rc : Fin 16) (h : op < 256) :
    fields (pack op rd ra rb rc) = ⟨op, rd, ra, rb, rc, 0⟩ := by
  simp only [fields, pack_toNat op rd ra rb rc h, bits, indexField, Fields.mk.injEq, Fin.ext_iff, Fin.val_ofNat]
  omega

theorem fields_op_lt (w : Word) : (fields w).op < 256 := by
  simp only [fields, bits]
  omega

theorem pack_fields (w : Word) (h : (fields w).zero = 0) :
    pack (fields w).op (fields w).rd (fields w).ra (fields w).rb (fields w).rc = w := by
  apply BitVec.eq_of_toNat_eq
  rw [pack_toNat _ _ _ _ _ (fields_op_lt w)]
  simp only [fields, bits, indexField, Fin.val_ofNat] at h ⊢
  have := w.isLt
  omega

/-! ### The masks -/

theorem land_C_abc (w : BitVec 32) :
    (w &&& 0xFFF000FF#32).toNat = w.toNat / 2 ^ 20 * 2 ^ 20 + w.toNat % 2 ^ 8 := by
  have h : w &&& 0xFFF000FF#32 = ((w >>> 20) <<< 20) ||| (w.setWidth 8).setWidth 32 := by
    ext i hi
    interval_cases i <;> simp
  have := w.isLt
  rw [h]
  simp only [BitVec.toNat_or, BitVec.toNat_shiftLeft, BitVec.toNat_ushiftRight, BitVec.toNat_setWidth]
  rw [Nat.mod_eq_of_lt (b := 2 ^ 32) (by simp only [Nat.shiftLeft_eq, Nat.shiftRight_eq_div_pow]; omega),
    ← Nat.shiftLeft_add_eq_or_of_lt (by omega)]
  simp only [Nat.shiftLeft_eq, Nat.shiftRight_eq_div_pow]
  omega

theorem land_C_ab (w : BitVec 32) :
    (w &&& 0xFFFF00FF#32).toNat = w.toNat / 2 ^ 16 * 2 ^ 16 + w.toNat % 2 ^ 8 := by
  have h : w &&& 0xFFFF00FF#32 = ((w >>> 16) <<< 16) ||| (w.setWidth 8).setWidth 32 := by
    ext i hi
    interval_cases i <;> simp
  have := w.isLt
  rw [h]
  simp only [BitVec.toNat_or, BitVec.toNat_shiftLeft, BitVec.toNat_ushiftRight, BitVec.toNat_setWidth]
  rw [Nat.mod_eq_of_lt (b := 2 ^ 32) (by simp only [Nat.shiftLeft_eq, Nat.shiftRight_eq_div_pow]; omega),
    ← Nat.shiftLeft_add_eq_or_of_lt (by omega)]
  simp only [Nat.shiftLeft_eq, Nat.shiftRight_eq_div_pow]
  omega

theorem land_C_abcd (w : BitVec 32) :
    (w &&& 0xFF0000FF#32).toNat = w.toNat / 2 ^ 24 * 2 ^ 24 + w.toNat % 2 ^ 8 := by
  have h : w &&& 0xFF0000FF#32 = ((w >>> 24) <<< 24) ||| (w.setWidth 8).setWidth 32 := by
    ext i hi
    interval_cases i <;> simp
  have := w.isLt
  rw [h]
  simp only [BitVec.toNat_or, BitVec.toNat_shiftLeft, BitVec.toNat_ushiftRight, BitVec.toNat_setWidth]
  rw [Nat.mod_eq_of_lt (b := 2 ^ 32) (by simp only [Nat.shiftLeft_eq, Nat.shiftRight_eq_div_pow]; omega),
    ← Nat.shiftLeft_add_eq_or_of_lt (by omega)]
  simp only [Nat.shiftLeft_eq, Nat.shiftRight_eq_div_pow]
  omega

/-- A row with two sources: the mask tests `op`, `rc` and `zero`. -/
theorem masked_abc (w : BitVec 32) (op : Nat) (h : op < 256) :
    w &&& 0xFFF000FF#32 = BitVec.ofNat 32 op ↔
      (fields w).op = op ∧ (fields w).rc = 0 ∧ (fields w).zero = 0 := by
  rw [← BitVec.toNat_inj, land_C_abc, BitVec.toNat_ofNat]
  simp only [fields, bits, indexField, Fin.ext_iff, Fin.val_ofNat, Fin.coe_ofNat_eq_mod]
  have := w.isLt
  omega

/-- A row with one source: the mask tests `op`, `rb`, `rc` and `zero`. -/
theorem masked_ab (w : BitVec 32) (op : Nat) (h : op < 256) :
    w &&& 0xFFFF00FF#32 = BitVec.ofNat 32 op ↔
      (fields w).op = op ∧ (fields w).rb = 0 ∧ (fields w).rc = 0 ∧ (fields w).zero = 0 := by
  rw [← BitVec.toNat_inj, land_C_ab, BitVec.toNat_ofNat]
  simp only [fields, bits, indexField, Fin.ext_iff, Fin.val_ofNat]
  have := w.isLt
  omega

/-- A row that uses every field: the mask tests `op` and `zero`. -/
theorem masked_abcd (w : BitVec 32) (op : Nat) (h : op < 256) :
    w &&& 0xFF0000FF#32 = BitVec.ofNat 32 op ↔ (fields w).op = op ∧ (fields w).zero = 0 := by
  rw [← BitVec.toNat_inj, land_C_abcd, BitVec.toNat_ofNat]
  simp only [fields, bits]
  have := w.isLt
  omega

end Sys2Proof
end

