-- ==== Sys2Proof/Laws/PerInstr.lean ====
section
/-! SUPPORT. For every command, as syntax: its word has the `op` of exactly one row of the opcode map, every field
of the word is the index of the register the row's class puts there, and every unused field is 0 (R82, R88). -/

namespace Sys2Proof.Laws.Form

open Sys2Proof Sys2Proof.Machine

/-- The indices in the fields `rd`, `ra`, `rb`, `rc` of a word, where a row uses them. -/
def usedFields (r : OpRow) (w : Word) : List Reg :=
  [(r.rd, (fields w).rd), (r.ra, (fields w).ra), (r.rb, (fields w).rb), (r.rc, (fields w).rc)].filterMap
    fun p => p.1.map fun c => ⟨c, p.2⟩

/-- The row the command is, and what its word holds. -/
def Statement (i : Instr) : Prop :=
  ∃ r ∈ opcodeTable, r.mnemonic = i.mnemonic ∧ (fields (encode i)).op = r.op ∧ (fields (encode i)).zero = 0 ∧
    usedFields r (encode i) = regsOf i ∧ (r.rb = none → (fields (encode i)).rb = 0) ∧
    (r.rc = none → (fields (encode i)).rc = 0)

theorem add (d a b : FIdx) : Statement (.add d a b) :=
  ⟨opcodeTable[0], by decide, rfl, by simp [encode, fields_pack, opcodeTable, usedFields, regsOf, destOf, sourcesOf]⟩

theorem sub (d a b : FIdx) : Statement (.sub d a b) :=
  ⟨opcodeTable[1], by decide, rfl, by simp [encode, fields_pack, opcodeTable, usedFields, regsOf, destOf, sourcesOf]⟩

theorem opp (d a : FIdx) : Statement (.opp d a) :=
  ⟨opcodeTable[2], by decide, rfl, by simp [encode, fields_pack, opcodeTable, usedFields, regsOf, destOf, sourcesOf]⟩

theorem carry (d a : FIdx) : Statement (.carry d a) :=
  ⟨opcodeTable[3], by decide, rfl, by simp [encode, fields_pack, opcodeTable, usedFields, regsOf, destOf, sourcesOf]⟩

theorem relax (d a : FIdx) : Statement (.relax d a) :=
  ⟨opcodeTable[4], by decide, rfl, by simp [encode, fields_pack, opcodeTable, usedFields, regsOf, destOf, sourcesOf]⟩

theorem carryMul (d a b : FIdx) : Statement (.carryMul d a b) :=
  ⟨opcodeTable[5], by decide, rfl, by simp [encode, fields_pack, opcodeTable, usedFields, regsOf, destOf, sourcesOf]⟩

theorem carrySquare (d a : FIdx) : Statement (.carrySquare d a) :=
  ⟨opcodeTable[6], by decide, rfl, by simp [encode, fields_pack, opcodeTable, usedFields, regsOf, destOf, sourcesOf]⟩

theorem carryScmulConst (d a : FIdx) : Statement (.carryScmulConst d a) :=
  ⟨opcodeTable[7], by decide, rfl, by simp [encode, fields_pack, opcodeTable, usedFields, regsOf, destOf, sourcesOf]⟩

theorem cmov (d a b p : WIdx) : Statement (.cmov d a b p) :=
  ⟨opcodeTable[8], by decide, rfl, by simp [encode, fields_pack, opcodeTable, usedFields, regsOf, destOf, sourcesOf]⟩

theorem select (d a b : FIdx) (p : WIdx) : Statement (.select d a b p) :=
  ⟨opcodeTable[9], by decide, rfl, by simp [encode, fields_pack, opcodeTable, usedFields, regsOf, destOf, sourcesOf]⟩

theorem toBytes (d : BIdx) (a : FIdx) : Statement (.toBytes d a) :=
  ⟨opcodeTable[10], by decide, rfl, by simp [encode, fields_pack, opcodeTable, usedFields, regsOf, destOf, sourcesOf]⟩

theorem fromBytes (d : FIdx) (a : BIdx) : Statement (.fromBytes d a) :=
  ⟨opcodeTable[11], by decide, rfl, by simp [encode, fields_pack, opcodeTable, usedFields, regsOf, destOf, sourcesOf]⟩

end Sys2Proof.Laws.Form
end

