-- ==== Sys2Proof/Laws/Window.lean ====
section
/-! SUPPORT. The host window: which port an offset is, what a host access does to the cells, and what a step
can answer. -/

namespace Sys2Proof.Machine

theorem byteOffset_offsetAt (n : Nat) (h : n < 2048) : byteOffset (offsetAt n) = n / 4 * 4 := by
  simp [byteOffset, offsetAt]
  omega

theorem portOf_cmd (c : Counts) : portOf c (offsetAt 0x000) = .cmd := by
  simp [portOf, byteOffset, offsetAt, controlPort]

theorem portOf_ctrl (c : Counts) : portOf c (offsetAt 0x010) = .ctrl := by
  simp [portOf, byteOffset, offsetAt, controlPort]

theorem portOf_word (c : Counts) (k : WIdx) (h : k.val < c.nw) :
    portOf c (offsetAt (0x040 + 4 * k.val)) = .word k := by
  have hk := k.isLt
  have hb : byteOffset (offsetAt (0x040 + 4 * k.val)) = 0x040 + 4 * k.val := by
    rw [byteOffset_offsetAt _ (by omega)]
    omega
  simp only [portOf, hb, wordPort]
  rw [if_neg (by omega), if_pos (by omega), if_pos (by omega)]
  congr 1
  apply Fin.ext
  simp

theorem portOf_bufWord (c : Counts) (k : BIdx) (m : Fin 8) (h : k.val < c.nb) :
    portOf c (offsetAt (0x100 + 32 * k.val + 4 * m.val)) = .bufWord k m := by
  have hk := k.isLt
  have hb : byteOffset (offsetAt (0x100 + 32 * k.val + 4 * m.val)) = 0x100 + 32 * k.val + 4 * m.val := by
    rw [byteOffset_offsetAt _ (by omega)]
    omega
  simp only [portOf, hb, bufPort]
  rw [if_neg (by omega), if_neg (by omega), if_neg (by omega), if_pos (by omega), if_pos (by omega)]
  congr 1 <;> apply Fin.ext <;> simp <;> omega

theorem portOf_limb (c : Counts) (k : FIdx) (i : Fin 10) (h : k.val < c.nf) :
    portOf c (offsetAt (0x400 + 64 * k.val + 4 * i.val)) = .limb k i := by
  have hk := k.isLt
  have hb : byteOffset (offsetAt (0x400 + 64 * k.val + 4 * i.val)) = 0x400 + 64 * k.val + 4 * i.val := by
    rw [byteOffset_offsetAt _ (by omega)]
    omega
  simp only [portOf, hb, limbPort]
  rw [if_neg (by omega), if_neg (by omega), if_neg (by omega), if_neg (by omega), if_neg (by omega),
    if_pos (by omega)]
  congr 1 <;> apply Fin.ext <;> simp <;> omega

/-! ### Reads after host writes -/

theorem State.limbCell_writeLimb (s : State) (k : FIdx) (i : Fin 10) (v : Word) (h : k.val < s.f.length)
    (j : Fin 10) : (s.writeLimb k i v).limbCell k j = if j = i then Slot.full v else s.limbCell k j := by
  simp [State.limbCell, State.writeLimb, List.getD_eq_getElem?_getD, List.getElem?_set_self h]

theorem State.readLimb_writeLimb (s : State) (k : FIdx) (i : Fin 10) (v : Word) (h : k.val < s.f.length)
    (j : Fin 10) : (s.writeLimb k i v).readLimb k j = if j = i then v else s.readLimb k j := by
  rw [State.readLimb, s.limbCell_writeLimb k i v h]
  split <;> rfl

theorem State.byteCell_writeBufWord (s : State) (k : BIdx) (m : Fin 8) (v : Word) (h : k.val < s.b.length)
    (j : Fin 32) : (s.writeBufWord k m v).byteCell k j =
      if j.val / 4 = m.val then Slot.full (byteOfWord v (j.val % 4)) else s.byteCell k j := by
  simp [State.byteCell, State.writeBufWord, List.getD_eq_getElem?_getD, List.getElem?_set_self h]

theorem State.readByte_writeBufWord (s : State) (k : BIdx) (m : Fin 8) (v : Word) (h : k.val < s.b.length)
    (j : Fin 32) : (s.writeBufWord k m v).readByte k j =
      if j.val / 4 = m.val then byteOfWord v (j.val % 4) else s.readByte k j := by
  rw [State.readByte, s.byteCell_writeBufWord k m v h]
  split <;> rfl

/-- The four bytes of a word, put together again, are the word (R57). -/
theorem wordOfBytes_byteOfWord (v : Word) :
    wordOfBytes (byteOfWord v 0) (byteOfWord v 1) (byteOfWord v 2) (byteOfWord v 3) = v := by
  apply BitVec.eq_of_toNat_eq
  have := v.isLt
  simp only [wordOfBytes, byteOfWord, bits, BitVec.toNat_ofNat]
  omega

/-! ### A read of an offset after a write of it (R56, R57, R58) -/

theorem State.windowRead_writeW {s : State} {off : Offset} {k : WIdx} (hp : portOf s.counts off = .word k)
    (hk : k.val < s.w.length) (v : Word) : (s.writeW k v).windowRead off = v := by
  rw [State.windowRead, (OnlyChanges.writeW s k v).counts, hp]
  exact s.readW_writeW v hk

theorem State.windowRead_writeLimb {s : State} {off : Offset} {k : FIdx} {i : Fin 10}
    (hp : portOf s.counts off = .limb k i) (hk : k.val < s.f.length) (v : Word) :
    (s.writeLimb k i v).windowRead off = v := by
  rw [State.windowRead, (OnlyChanges.writeLimb s k i v).counts, hp]
  simpa using s.readLimb_writeLimb k i v hk i

theorem State.windowRead_writeBufWord {s : State} {off : Offset} {k : BIdx} {m : Fin 8}
    (hp : portOf s.counts off = .bufWord k m) (hk : k.val < s.b.length) (v : Word) :
    (s.writeBufWord k m v).windowRead off = v := by
  have hb : ∀ q : Fin 4, (s.writeBufWord k m v).readByte k (byteIndex m q) = byteOfWord v q.val := by
    intro q
    have h1 : (byteIndex m q).val / 4 = m.val := by simp only [byteIndex]; omega
    have h2 : (byteIndex m q).val % 4 = q.val := by simp only [byteIndex]; omega
    rw [s.readByte_writeBufWord k m v hk, if_pos h1, h2]
  rw [State.windowRead, (OnlyChanges.writeBufWord s k m v).counts, hp]
  simp only [State.readBufWord, hb]
  exact wordOfBytes_byteOfWord v

/-! ### What a host operation can do -/

/-- Everything `issueCommand` can answer. -/
theorem issueCommand_cases (w : Word) (s : State) :
    (s.err = true ∧ issueCommand w s = .next s) ∨
    (s.err = false ∧ (∃ e, decode w = .error e) ∧ issueCommand w s = .next (s.raiseFault .illegalCommand w)) ∨
    (s.err = false ∧ ∃ i, decode w = .ok i ∧ issueCommand w s = exec i s) := by
  unfold issueCommand
  cases hs : s.err
  · cases hd : decode w <;> simp
  · simp

/-- Everything a host write can answer. -/
theorem hostWrite_cases (off : Offset) (v : Word) (s : State) :
    (portOf s.counts off = .cmd ∧ hostWrite off v s = issueCommand v s) ∨
    (portOf s.counts off = .ctrl ∧ v.getLsbD 0 = true ∧ hostWrite off v s = .next s.engineReset) ∨
    (∃ k, portOf s.counts off = .word k ∧ hostWrite off v s = .next (s.writeW k v)) ∨
    (∃ k m, portOf s.counts off = .bufWord k m ∧ hostWrite off v s = .next (s.writeBufWord k m v)) ∨
    (∃ k i, portOf s.counts off = .limb k i ∧ hostWrite off v s = .next (s.writeLimb k i v)) ∨
    hostWrite off v s = .next s := by
  unfold hostWrite
  cases portOf s.counts off <;> simp
  cases h : v[0] <;> simp

/-- A step with a host operation to do is that operation, at the state in which the host has taken it. -/
theorem step_cons {s : State} {op : HostOp} {rest : List HostOp} (h : s.ops = op :: rest) :
    step s = performOp op (s.take rest) := by
  simp [step, stepOp, h]

theorem step_nil {s : State} (h : s.ops = []) : step s = .next s := by
  simp [step, stepOp, h]

/-! ### The storage form: every register write keeps it -/

theorem FReg.blank_canon (i : Fin 10) : Slot.Canon FReg.blank[i] := by
  intro
  simp [FReg.blank]

theorem BReg.blank_canon (j : Fin 32) : Slot.Canon BReg.blank[j] := by
  intro
  simp [BReg.blank]

theorem State.writeF_canon {s : State} (h : ∀ r ∈ s.f, ∀ i : Fin 10, Slot.Canon r[i]) (k : FIdx) (x : Limbs) :
    ∀ r ∈ (s.writeF k x).f, ∀ i : Fin 10, Slot.Canon r[i] := by
  intro r hr
  rcases List.mem_or_eq_of_mem_set hr with hm | rfl
  · exact h r hm
  · simp

theorem State.writeB_canon {s : State} (h : ∀ r ∈ s.b, ∀ j : Fin 32, Slot.Canon r[j]) (k : BIdx) (x : Buffer) :
    ∀ r ∈ (s.writeB k x).b, ∀ j : Fin 32, Slot.Canon r[j] := by
  intro r hr
  rcases List.mem_or_eq_of_mem_set hr with hm | rfl
  · exact h r hm
  · simp

theorem State.writeW_canon {s : State} (h : ∀ r ∈ s.w, Slot.Canon r) (k : WIdx) (v : Word) :
    ∀ r ∈ (s.writeW k v).w, Slot.Canon r := by
  intro r hr
  rcases List.mem_or_eq_of_mem_set hr with hm | rfl
  · exact h r hm
  · simp

theorem getD_of_forall {α : Type} {l : List α} {n : Nat} {d : α} {p : α → Prop} (h : ∀ x ∈ l, p x) (hd : p d) :
    p (l.getD n d) := by
  rw [List.getD_eq_getElem?_getD]
  cases hx : l[n]? with
  | none => simpa using hd
  | some x => simpa using h x (List.mem_of_getElem? hx)

theorem State.writeLimb_canon {s : State} (h : ∀ r ∈ s.f, ∀ i : Fin 10, Slot.Canon r[i]) (k : FIdx) (m : Fin 10)
    (v : Word) : ∀ r ∈ (s.writeLimb k m v).f, ∀ i : Fin 10, Slot.Canon r[i] := by
  intro r hr
  simp only [State.writeLimb] at hr
  rcases List.mem_or_eq_of_mem_set hr with hm | rfl
  · exact h r hm
  · intro i
    simp only [Fin.getElem_fin, Vector.getElem_ofFn]
    split
    · simp
    · exact getD_of_forall (p := fun r : FReg => ∀ i : Fin 10, Slot.Canon r[i]) h FReg.blank_canon i

theorem State.writeBufWord_canon {s : State} (h : ∀ r ∈ s.b, ∀ j : Fin 32, Slot.Canon r[j]) (k : BIdx) (m : Fin 8)
    (v : Word) : ∀ r ∈ (s.writeBufWord k m v).b, ∀ j : Fin 32, Slot.Canon r[j] := by
  intro r hr
  simp only [State.writeBufWord] at hr
  rcases List.mem_or_eq_of_mem_set hr with hm | rfl
  · exact h r hm
  · intro j
    simp only [Fin.getElem_fin, Vector.getElem_ofFn]
    split
    · simp
    · exact getD_of_forall (p := fun r : BReg => ∀ j : Fin 32, Slot.Canon r[j]) h BReg.blank_canon j

theorem State.engineReset_canon (s : State) :
    (∀ r ∈ s.engineReset.f, ∀ i : Fin 10, Slot.Canon r[i]) ∧
    (∀ r ∈ s.engineReset.b, ∀ j : Fin 32, Slot.Canon r[j]) ∧ (∀ r ∈ s.engineReset.w, Slot.Canon r) := by
  refine ⟨fun r hr => ?_, fun r hr => ?_, fun r hr => ?_⟩ <;> rw [List.eq_of_mem_replicate hr]
  · exact FReg.blank_canon
  · exact BReg.blank_canon
  · simp [Slot.Canon, WReg.blank]

end Sys2Proof.Machine
end

