-- ==== Sys2Proof/Tests/Slice0.lean ====
section
/-! SUPPORT. Tests on fixed values, with expected results from spec/95_test_vectors.md and the worked examples of
the rules, and a witness for the hypotheses of every statement. -/

namespace Sys2Proof.Tests

set_option Elab.async false

open Sys2Proof Sys2Proof.Machine

/-! ### Well-formedness: one ill-formed command for each check -/

theorem test_wf_accepts : Instr.wf ⟨16, 4, 8⟩ (.add 2 0 1) = true := by decide
theorem test_wf_accepts_equal_sources : Instr.wf ⟨16, 4, 8⟩ (.add 1 0 0) = true := by decide
theorem test_wf_accepts_highest_indices : Instr.wf ⟨16, 4, 8⟩ (.select 15 14 13 7) = true := by decide
theorem test_wf_range_F_dest : Instr.wf ⟨3, 4, 8⟩ (.add 3 0 1) = false := by decide
theorem test_wf_range_F_first : Instr.wf ⟨3, 4, 8⟩ (.sub 2 3 1) = false := by decide
theorem test_wf_range_F_second : Instr.wf ⟨3, 4, 8⟩ (.carryMul 2 0 3) = false := by decide
theorem test_wf_range_B_dest : Instr.wf ⟨16, 4, 8⟩ (.toBytes 8 0) = false := by decide
theorem test_wf_range_B_source : Instr.wf ⟨16, 4, 8⟩ (.fromBytes 0 4) = false := by decide
theorem test_wf_range_W_predicate : Instr.wf ⟨16, 4, 8⟩ (.select 3 1 2 8) = false := by decide
theorem test_wf_range_W_data : Instr.wf ⟨16, 4, 8⟩ (.cmov 3 8 2 0) = false := by decide
theorem test_wf_alias_first : Instr.wf ⟨16, 4, 8⟩ (.opp 1 1) = false := by decide
theorem test_wf_alias_second : Instr.wf ⟨16, 4, 8⟩ (.select 2 1 2 0) = false := by decide
theorem test_wf_alias_predicate : Instr.wf ⟨16, 4, 8⟩ (.cmov 0 1 2 0) = false := by decide

/-! ### Decoding: for every command a word written out from R81 and R88 (the words of R94 and of vectors 2.5, 2.7),
field by field `zero rc rb ra rd op` -/

theorem test_decode_add : decode 0b00000000_0000_0001_0000_0010_00000001 = .ok (.add 2 0 1) := by decide
theorem test_decode_sub : decode 0b00000000_0000_0001_0000_0010_00000010 = .ok (.sub 2 0 1) := by decide
theorem test_decode_opp : decode 0b00000000_0000_0000_0000_0001_00000011 = .ok (.opp 1 0) := by decide
theorem test_decode_carry : decode 0b00000000_0000_0000_0010_0011_00000100 = .ok (.carry 3 2) := by decide
theorem test_decode_relax : decode 0b00000000_0000_0000_0000_0001_00000101 = .ok (.relax 1 0) := by decide
theorem test_decode_carry_mul : decode 0b00000000_0000_0001_0000_0010_00001000 = .ok (.carryMul 2 0 1) := by decide
theorem test_decode_carry_square : decode 0b00000000_0000_0000_0000_0001_00001001 = .ok (.carrySquare 1 0) := by decide
theorem test_decode_carry_scmul : decode 0b00000000_0000_0000_0001_0010_00001010 = .ok (.carryScmulConst 2 1) := by decide
theorem test_decode_cmov : decode 0b00000000_1111_0010_0001_0011_00010000 = .ok (.cmov 3 1 2 15) := by decide
theorem test_decode_select : decode 0b00000000_0010_0000_0000_0010_00010001 = .ok (.select 2 0 0 2) := by decide
theorem test_decode_to_bytes : decode 0b00000000_0000_0000_0100_0000_00011000 = .ok (.toBytes 0 4) := by decide
theorem test_decode_from_bytes : decode 0b00000000_0000_0000_0100_0000_00011001 = .ok (.fromBytes 0 4) := by decide
theorem test_reject_zero_word : decode 0x00000000 = .error .unknownOp := by decide
theorem test_reject_ones_word : decode 0xFFFFFFFF = .error .zeroFieldSet := by decide
theorem test_reject_gap_in_ops : decode 0x00000006 = .error .unknownOp := by decide
theorem test_reject_zero_field : decode 0x01010201 = .error .zeroFieldSet := by decide
theorem test_reject_unused_rc : decode 0x00110201 = .error .unusedFieldSet := by decide
theorem test_reject_unused_rb : decode 0x00010203 = .error .unusedFieldSet := by decide
theorem test_table_word : decodeTableWord 32 0x00012311 = some (.select 3 2 1 0) := by decide
theorem test_encode_cmov : encode (.cmov 3 1 2 0) = 0x00021310 := by decide

/-! ### A board: a reset engine whose host has written some registers -/

/-- Ten limbs from numbers. -/
def limbs (z : List Nat) : Limbs := Vector.ofFn fun i => BitVec.ofNat 32 (z.getD i.val 0)

/-- Thirty-two bytes from numbers. -/
def bytes (z : List Nat) : Buffer := Vector.ofFn fun j => BitVec.ofNat 8 (z.getD j.val 0)

/-- Ten limbs: limb 0, the odd limbs, the other even limbs. -/
def pattern (z o e : Nat) : Limbs :=
  Vector.ofFn fun i => BitVec.ofNat 32 (if i = 0 then z else if i.val % 2 = 1 then o else e)

/-- `PD` of spec/95: p's digits. -/
def pd : Limbs := pattern 0x3FFFFED 0x1FFFFFF 0x3FFFFFF

/-- `PM1`: p - 1. -/
def pm1 : Limbs := pattern 0x3FFFFEC 0x1FFFFFF 0x3FFFFFF

/-- `TMAX`: every limb at the tight bound. -/
def tmax : Limbs := pattern 0x4000000 0x2000000 0x4000000

/-- `LMAX`: every limb at the loose bound. -/
def lmax : Limbs := pattern 0xC000000 0x6000000 0xC000000

/-- `F0` = x, `F1` = y, `W0` = 0, `W1` = 1 and `B0` = 1, 2, 3, .. written; nothing else. -/
def board (x y : Limbs) : State :=
  ((((State.reset.writeF 0 x).writeF 1 y).writeW 0 0).writeW 1 1).writeB 0 (bytes (List.range' 1 32))

/-- The state after one step that issues a command word. -/
def after (s : State) (w : Nat) : State :=
  match step (s.withFetchWord 32 w) with
  | .next t => t
  | .fault _ => s
  | .refused _ => s

/-- The next state an outcome answers, if it does. -/
def nextOf (o : Host.Outcome State Fault Refusal) : Option State :=
  match o with
  | .next t => some t
  | .fault _ => none
  | .refused _ => none

theorem eq_next {o : Host.Outcome State Fault Refusal} {t : State} (h : nextOf o = some t) : o = .next t := by
  cases o <;> simp_all [nextOf]

/-! ### The commands -/

theorem test_add : ((after (board pm1 (limbs [1])) 0x00010201).readF 2).toList = pd.toList := by decide +kernel

theorem test_add_top : ((after (board tmax tmax) 0x00010201).readF 2).toList =
    (pattern 0x8000000 0x4000000 0x8000000).toList := by decide +kernel

theorem test_sub_top : ((after (board tmax (limbs [])) 0x00010202).readF 2).toList =
    (pattern 0xBFFFFDA 0x5FFFFFE 0xBFFFFFE).toList := by decide +kernel

theorem test_sub_bottom : ((after (board (limbs []) tmax) 0x00010202).readF 2).toList =
    (pattern 0x3FFFFDA 0x1FFFFFE 0x3FFFFFE).toList := by decide +kernel

theorem test_opp : ((after (board (limbs [1]) tmax) 0x00000203).readF 2).toList =
    (pattern 0x7FFFFD9 0x3FFFFFE 0x7FFFFFE).toList := by decide +kernel

theorem test_carry_repropagates : ((after (board (limbs [0x3FFFFFF, 0x1FFFFFF, 0x3FFFFFF, 0, 0, 0, 0, 0, 0, 0x2000000])
    tmax) 0x00000204).readF 2).toList = (limbs [0x12, 0, 0x4000000]).toList := by decide +kernel

theorem test_carry_loose_top : ((after (board lmax tmax) 0x00000204).readF 2).toList =
    (pattern 0x39 3 3).toList := by decide +kernel

theorem test_relax_copies_anything : ((after (board (pattern 0xFFFFFFFF 0xFFFFFFFF 0xFFFFFFFF) tmax)
    0x00000205).readF 2).toList = (pattern 0xFFFFFFFF 0xFFFFFFFF 0xFFFFFFFF).toList := by decide +kernel

theorem test_carry_mul_odd_pair_wraps : ((after (board (limbs [0, 1]) (limbs [0, 0, 0, 0, 0, 0, 0, 0, 0, 1]))
    0x00010208).readF 2).toList = (limbs [0x26]).toList := by decide +kernel

theorem test_carry_mul_loose_top : ((after (board lmax lmax) 0x00010208).readF 2).toList =
    (limbs [0x000160B, 0x00006AE, 0x00008C1, 0x000056A, 0x00006DB, 0x0000426, 0x00004F5, 0x00002E2, 0x000030F,
      0x000019E]).toList := by decide +kernel

theorem test_carry_square : ((after (board (pattern 0x3FFFFFF 0x1FFFFFF 0x3FFFFFF) tmax) 0x00000209).readF 2).toList =
    (limbs [0x0000131, 0, 0x4000000, 0x1FFFFFF, 0x3FFFFFF, 0x1FFFFFF, 0x3FFFFFF, 0x1FFFFFF, 0x3FFFFFF,
      0x1FFFFFF]).toList := by decide +kernel

theorem test_carry_scmul_const : ((after (board (limbs [0, 0, 0, 0, 0, 0, 0, 0, 0, 0x1FFFFFF]) tmax)
    0x0000020A).readF 2).toList = (limbs [0x02345D3, 0, 0, 0, 0, 0, 0, 0, 0, 0x1FE24BE]).toList := by decide +kernel

theorem test_cmov_zero : (after (((board pd pd).writeW 3 0xAAAAAAAA).writeW 4 0x55555555) 0x00043510).readW 5 =
    0xAAAAAAAA := by decide +kernel

theorem test_cmov_one : (after (((board pd pd).writeW 3 0xAAAAAAAA).writeW 4 0x55555555) 0x00143510).readW 5 =
    0x55555555 := by decide +kernel

theorem test_select_zero : ((after (board (pattern 0xFFFFFFFF 0xFFFFFFFF 0xFFFFFFFF) (limbs [])) 0x00010211).readF 2).toList =
    (pattern 0xFFFFFFFF 0xFFFFFFFF 0xFFFFFFFF).toList := by decide +kernel

theorem test_select_one : ((after (board pd (limbs [7])) 0x00110211).readF 2).toList = (limbs [7]).toList := by
  decide +kernel

theorem test_to_bytes_of_p : ((after (board pd tmax) 0x00000118).readB 1).toList = List.replicate 32 0 := by
  decide +kernel

theorem test_to_bytes_of_tmax : ((after (board tmax tmax) 0x00000118).readB 1).toList =
    (bytes [0x13, 0, 0, 4, 0, 0, 8, 0, 0, 0x20, 0, 0, 0x40, 0, 0, 0, 1, 0, 0, 2, 0, 0, 8, 0, 0, 0x10, 0, 0,
      0x40]).toList := by decide +kernel

theorem test_from_bytes : ((after (board pd pd) 0x00000219).readF 2).toList =
    (limbs [0x0030201, 0x1C18141, 0x1412100, 0x0686058, 0x0403C38, 0x0131211, 0x38B0A8A, 0x1432302, 0x1D1C1B1,
      0x0807C78]).toList := by decide +kernel

theorem test_from_bytes_drops_bit_255 :
    ((after ((board pd pd).writeB 1 (bytes (List.replicate 31 0 ++ [0x80]))) 0x00001219).readF 2).toList =
    (limbs []).toList := by decide +kernel

/-! ### Faults, the halted state and reset (vectors 2.7, 2.8) -/

/-- `ERR`, `CAUSE`, `ERRCMD` as the host reads them. -/
def status (s : State) : List Nat := [s.statusWord.toNat, s.causeWord.toNat, s.errcmdWord.toNat]

theorem test_fault_illegal : status (after State.reset 0x00110201) = [1, 1, 0x00110201] := by decide +kernel
theorem test_fault_range_before_alias : status (after State.reset 0x00800010) = [1, 2, 0x00800010] := by decide +kernel
theorem test_fault_alias : status (after State.reset 0x00222211) = [1, 3, 0x00222211] := by decide +kernel
theorem test_fault_range_of_two : status (after (State.resetWith ⟨2, 4, 8⟩) 0x00022201) = [1, 2, 0x00022201] := by
  decide +kernel
theorem test_fault_alias_of_three : status (after (State.resetWith ⟨3, 4, 8⟩) 0x00022201) = [1, 3, 0x00022201] := by
  decide +kernel
theorem test_halted_discards : status (after (after State.reset 0x00000001) 0x00000000) = [1, 3, 1] := by decide +kernel
theorem test_unmet_precondition_is_no_fault : status (after (board lmax lmax) 0x00010201) = [0, 0, 0] := by
  decide +kernel
theorem test_unwritten_source_is_no_fault : status (after State.reset 0x00011019) = [1, 1, 0x00011019] ∧
    status (after State.reset 0x00001119) = [0, 0, 0] := by decide +kernel
theorem test_soft_reset : hostWrite (offsetAt 0x010) 0xFFFFFFFF (after State.reset 0) =
    .next (after State.reset 0).engineReset ∧ status (after State.reset 0).engineReset = [0, 0, 0] :=
  ⟨eq_next (by decide +kernel), by decide +kernel⟩
theorem test_ctrl_needs_bit_zero : hostWrite (offsetAt 0x010) 0xFFFFFFFE (after State.reset 0) =
    .next (after State.reset 0) := eq_next (by decide +kernel)

/-! ### The window -/

theorem test_port_map : portOf ⟨16, 4, 8⟩ (offsetAt 0x4A4) = .limb 2 9 ∧ portOf ⟨16, 4, 8⟩ (offsetAt 0x4A8) = .reserved ∧
    portOf ⟨16, 4, 8⟩ (offsetAt 0x13C) = .bufWord 1 7 ∧ portOf ⟨16, 4, 8⟩ (offsetAt 0x180) = .reserved ∧
    portOf ⟨16, 4, 8⟩ (offsetAt 0x05C) = .word 7 ∧ portOf ⟨16, 4, 8⟩ (offsetAt 0x060) = .reserved ∧
    portOf ⟨16, 4, 8⟩ (offsetAt 0x7E4) = .limb 15 9 := by decide
theorem test_wrb_words : wrb 1 (bytes (List.range' 1 32)) =
    [.write (offsetAt 0x120) 0x04030201, .write (offsetAt 0x124) 0x08070605, .write (offsetAt 0x128) 0x0C0B0A09,
     .write (offsetAt 0x12C) 0x100F0E0D, .write (offsetAt 0x130) 0x14131211, .write (offsetAt 0x134) 0x18171615,
     .write (offsetAt 0x138) 0x1C1B1A19, .write (offsetAt 0x13C) 0x201F1E1D] := by decide +kernel
theorem test_buffer_word_read : (board pd pd).windowRead (offsetAt 0x11C) = 0x201F1E1D := by decide +kernel
theorem test_asm_line : asmLine (.select 2 0 1 3) = "select F2, W3, F0, F1" := by decide +kernel

/-! ### Witnesses: states and operands that meet the hypotheses of the statements together -/

theorem witness_decoded_word : decode 0x00010201 = .ok (.add 2 0 1) := by decide

theorem witness_selected_row : opcodeTable[0] ∈ opcodeTable ∧ opcodeTable[0].selects 0x00010201 = true := by decide

theorem witness_illegal_word : State.reset.err = false ∧ (∀ r ∈ opcodeTable, r.selects 0x00110201 = false) := by decide

theorem witness_unused_rb : ∃ r ∈ opcodeTable, r.op = (fields 0x00010203).op ∧ r.rb = none ∧ (fields 0x00010203).rb ≠ 0 := by
  decide

/-- StepExecutesTheWrittenCommand, EveryStepAnswersNext, StepKeepsTheInvariant. -/
theorem witness_step : (State.reset.withCommand 0x00010201).ops = .write (offsetAt 0x000) 0x00010201 :: [] ∧
    decode 0x00010201 = .ok (.add 2 0 1) := by decide

/-- IssueRunsTheFiveSteps: discarded. -/
theorem witness_issue_halted : (after State.reset 0).err = true := by decide +kernel

/-- IssueRunsTheFiveSteps: a selected word with an index at its count, and no other fault. -/
theorem witness_issue_range : State.reset.err = false ∧ opcodeTable[11].selects 0x00004019 = true ∧
    (∃ q ∈ namedRegs opcodeTable[11] 0x00004019, countOf State.reset.counts q.file ≤ q.idx.val) := by decide +kernel

/-- IssueRunsTheFiveSteps: a selected word in range whose destination is a source; the highest index in range. -/
theorem witness_issue_alias : State.reset.err = false ∧ opcodeTable[4].selects 0x0000FF05 = true ∧
    (∀ q ∈ namedRegs opcodeTable[4] 0x0000FF05, q.idx.val < countOf State.reset.counts q.file) ∧
    (∃ q ∈ (namedRegs opcodeTable[4] 0x0000FF05).tail, (namedRegs opcodeTable[4] 0x0000FF05).head? = some q) := by
  decide +kernel

/-- IssueRunsTheFiveSteps: a word that is performed, its destination and a source at the highest indices. -/
theorem witness_issue_performed : State.reset.err = false ∧ opcodeTable[11].selects 0x00003F19 = true ∧
    (∀ q ∈ namedRegs opcodeTable[11] 0x00003F19, q.idx.val < countOf State.reset.counts q.file) ∧
    (∀ q ∈ (namedRegs opcodeTable[11] 0x00003F19).tail, (namedRegs opcodeTable[11] 0x00003F19).head? ≠ some q) := by
  decide +kernel

/-- FaultEntryIsPrecise: one word for each cause. -/
theorem witness_fault_entry : State.reset.err = false ∧
    wordFault State.reset.counts 0x00000000 = some .illegalCommand ∧
    wordFault State.reset.counts 0x00000818 = some .regRange ∧
    wordFault State.reset.counts 0x00001101 = some .aliased := by decide +kernel

/-- LowestCauseIsReported: a nonzero `zero` field, and the counts on both sides of the boundary. -/
theorem witness_lowest_cause : (fields 0x01000201).zero ≠ 0 ∧ (fields 0x80000000).zero ≠ 0 ∧ (⟨2, 4, 8⟩ : Counts).nf = 2 ∧ 3 ≤ (⟨3, 4, 8⟩ : Counts).nf := by decide

/-- LowestCauseIsReported: a word that fails all three checks, and one that fails the last two. -/
theorem witness_several_causes :
    FaultApplies ⟨2, 4, 8⟩ 0x01022201 .illegalCommand ∧ FaultApplies ⟨2, 4, 8⟩ 0x01022201 .regRange ∧
    FaultApplies ⟨2, 4, 8⟩ 0x01022201 .aliased ∧ ¬ FaultApplies ⟨2, 4, 8⟩ 0x00022201 .illegalCommand ∧
    FaultApplies ⟨2, 4, 8⟩ 0x00022201 .regRange ∧ FaultApplies ⟨2, 4, 8⟩ 0x00022201 .aliased := by
  unfold FaultApplies
  decide

/-- LowestCauseIsReported: an engine that has not faulted and a word with its lowest cause. -/
theorem witness_reported_cause : (State.resetWith ⟨2, 4, 8⟩).err = false ∧
    FaultApplies (State.resetWith ⟨2, 4, 8⟩).counts 0x00022201 .regRange ∧
    ∀ j, FaultApplies (State.resetWith ⟨2, 4, 8⟩).counts 0x00022201 j → CommandFault.regRange.code.toNat ≤ j.code.toNat :=
  ⟨rfl, witness_several_causes.2.2.2.2.1, fun j h => match j, h with
    | .illegalCommand, h => absurd h witness_several_causes.2.2.2.1
    | .regRange, _ => by decide
    | .aliased, _ => by decide⟩

/-- A faulted engine whose host has the given operations to do. -/
def halted (ops : List HostOp) : State := { after State.reset 0x00000001 with ops := ops }

/-- HaltedUntilReset: a data register's offset and its write. -/
theorem witness_halted_write : (halted []).err = true ∧ (portOf (halted []).counts (offsetAt 0x400)).reg ≠ none ∧
    hostWrite (offsetAt 0x400) 7 (halted []) = .next ((halted []).writeLimb 0 0 7) :=
  ⟨by decide +kernel, by decide +kernel, eq_next (by decide +kernel)⟩

/-- HaltedUntilReset: a step that resets, and one that does not. -/
theorem witness_halted_step : (halted [.hardReset]).err = true ∧
    step (halted [.hardReset]) = .next ((halted [.hardReset]).take []).engineReset ∧
    step (halted [.write (offsetAt 0x010) 0]) = .next ((halted [.write (offsetAt 0x010) 0]).take []) :=
  ⟨by decide +kernel, eq_next (by decide +kernel), eq_next (by decide +kernel)⟩

/-- HaltedRunComputesNothing. -/
theorem witness_halted_run : (halted [.write (offsetAt 0) 1, .write (offsetAt 0) 2]).err = true ∧
    (∀ op ∈ (halted [.write (offsetAt 0) 1, .write (offsetAt 0) 2]).ops,
      op.issues (halted [.write (offsetAt 0) 1, .write (offsetAt 0) 2]).counts = true) := by decide +kernel

/-- BothResetsHaveOneEffect: both causes, the soft one on a faulted engine. -/
theorem witness_resets : (HostOp.hardReset).resets State.reset.counts = true ∧
    (HostOp.write (offsetAt 0x010) 1).resets (halted []).counts = true ∧
    (halted [.write (offsetAt 0x010) 1]).ops = .write (offsetAt 0x010) 1 :: [] := by decide +kernel

/-- CtrlRegister: both values of bit 0, with other bits set. -/
theorem witness_ctrl : bits (0xFFFFFFFF : Word).toNat 0 1 = 1 ∧ bits (0xFFFFFFFE : Word).toNat 0 1 = 0 := by decide

/-- ReadsHaveNoSideEffect: an offset for each clause. -/
theorem witness_reads : byteOffset (offsetAt 0x000) = 0x000 ∧ byteOffset (offsetAt 0x010) = 0x010 ∧
    portOf State.reset.counts (offsetAt 0x014) = .reserved ∧ byteOffset (offsetAt 0x004) = 0x004 ∧
    byteOffset (offsetAt 0x008) = 0x008 ∧ byteOffset (offsetAt 0x00C) = 0x00C ∧
    portOf State.reset.counts (offsetAt 0x040) = .word 0 ∧ portOf State.reset.counts (offsetAt 0x100) = .bufWord 0 0 ∧
    portOf State.reset.counts (offsetAt 0x400) = .limb 0 0 := by decide +kernel

/-- ReadsHaveNoSideEffect: a data register that has been written. -/
theorem witness_read_again : (portOf (board pd pd).counts (offsetAt 0x400)).reg = some ⟨.F, 0⟩ ∧
    (board pd pd).written ⟨.F, 0⟩ = true := by decide +kernel

/-- WindowMapIsExact. -/
theorem witness_map : (Port.limb 15 9).present ⟨16, 4, 8⟩ ∧ (Port.bufWord 3 7).present ⟨16, 4, 8⟩ ∧
    (Port.word 7).present ⟨16, 4, 8⟩ ∧ portOf ⟨16, 4, 8⟩ (offsetAt 0x7E4) ≠ .reserved :=
  ⟨by simp [Port.present], by simp [Port.present], by simp [Port.present], by decide⟩

/-- ReservedOffsetsAreInert: the ends of every range that exists with the default counts. -/
theorem witness_reserved :
    (∀ n ∈ [0x014, 0x03C, 0x060, 0x07C, 0x080, 0x0FC, 0x180, 0x2FC, 0x300, 0x3FC, 0x428, 0x43C, 0x7E8, 0x7FC],
      n = byteOffset (offsetAt n) ∧ ((0x014 ≤ n ∧ n ≤ 0x03C) ∨
        (0x040 ≤ n ∧ n ≤ 0x07C ∧ State.reset.counts.nw ≤ (n - 0x040) / 4) ∨ (0x080 ≤ n ∧ n ≤ 0x0FC) ∨
        (0x100 ≤ n ∧ n ≤ 0x2FC ∧ State.reset.counts.nb ≤ (n - 0x100) / 32) ∨ (0x300 ≤ n ∧ n ≤ 0x3FC) ∨
        (0x400 ≤ n ∧ (State.reset.counts.nf ≤ (n - 0x400) / 64 ∨ 40 ≤ (n - 0x400) % 64)))) := by decide +kernel

/-- WordRegisterWindow, BufferWindow, LimbWindow: the lowest and the highest index. -/
theorem witness_windows : (0 : WIdx).val < State.reset.counts.nw ∧ (7 : WIdx).val < State.reset.counts.nw ∧
    (0 : BIdx).val < State.reset.counts.nb ∧ (3 : BIdx).val < State.reset.counts.nb ∧
    (0 : FIdx).val < State.reset.counts.nf ∧ (15 : FIdx).val < State.reset.counts.nf := by decide

/-- BufferWindow, LimbWindow: a written byte of another word, a written other limb. -/
theorem witness_other_cell : (31 : Fin 32).val / 4 ≠ (0 : Fin 8).val ∧ ((board pd pd).byteCell 0 31).written = true ∧
    (9 : Fin 10) ≠ 0 ∧ ((board pd pd).limbCell 0 9).written = true := by decide +kernel

/-- HostWriteDoesOneThing: a port with a register and one without. -/
theorem witness_host_write : byteOffset (offsetAt 0x000) = 0x000 ∧ byteOffset (offsetAt 0x010) = 0x010 ∧
    byteOffset (offsetAt 0x040) ≠ 0x000 ∧ byteOffset (offsetAt 0x040) ≠ 0x010 ∧ portOf State.reset.counts (offsetAt 0x040) ≠ .cmd ∧
    portOf State.reset.counts (offsetAt 0x040) ≠ .ctrl ∧
    (portOf State.reset.counts (offsetAt 0x040)).reg = some ⟨.W, 0⟩ ∧
    portOf State.reset.counts (offsetAt 0x004) ≠ .cmd ∧ portOf State.reset.counts (offsetAt 0x004) ≠ .ctrl ∧
    (portOf State.reset.counts (offsetAt 0x004)).reg = none := by decide +kernel

/-- PseudoInstructionsLoadARegister: the highest registers. -/
theorem witness_pseudo : (15 : Fin 16).val < ({ State.reset with ops := wrf 15 pd } : State).counts.nf ∧
    ({ State.reset with ops := wrf 15 pd } : State).ops = wrf 15 pd ++ [] ∧
    (3 : Fin 16).val < ({ State.reset with ops := wrb 3 (bytes []) } : State).counts.nb ∧
    ({ State.reset with ops := wrb 3 (bytes []) } : State).ops = wrb 3 (bytes []) ++ [] := by decide +kernel

/-- The command rules, the ring laws, DataNeverFaults: an engine with sources at the tight and the loose bound,
every command's form accepted, and both predicates. -/
theorem witness_rules : (board tmax lmax).err = false ∧
    Tight (digits ((board tmax lmax).readF 0)) ∧ Loose (digits ((board tmax lmax).readF 1)) ∧
    (board tmax lmax).readW 0 = 0 ∧ (board tmax lmax).readW 1 = 1 ∧
    (∀ i ∈ ([.add 2 0 0, .sub 2 0 0, .opp 2 0, .carry 2 1, .relax 2 0, .carryMul 2 1 1, .carrySquare 2 1,
      .carryScmulConst 2 1, .cmov 2 0 1 0, .select 2 0 0 1, .toBytes 1 0, .fromBytes 2 0, .carry 3 2] : List Instr),
      i.wf (board tmax lmax).counts = true) := by decide +kernel

/-- The command rules: a form that fails each check. -/
theorem witness_form_checks : Instr.inRange State.reset.counts (.toBytes 4 0) = false ∧
    Instr.inRange State.reset.counts (.add 2 2 1) = true ∧ Instr.noAlias (.add 2 2 1) = false := by decide +kernel

/-- Two sources, both tight, of `select`, `add`, `sub` and the ring laws. -/
theorem witness_two_tight : Tight (digits ((board tmax pm1).readF 0)) ∧ Tight (digits ((board tmax pm1).readF 1)) ∧
    Instr.wf (board tmax pm1).counts (.add 2 0 1) = true ∧ Instr.wf (board tmax pm1).counts (.sub 2 0 1) = true ∧
    Instr.wf (board tmax pm1).counts (.opp 2 0) = true ∧ Instr.wf (board tmax pm1).counts (.carry 3 2) = true := by
  decide +kernel

/-- ChainProperties: each of its premises, at a bound. -/
theorem witness_chain : Loose looseMax ∧ (∀ i : Fin 10, (fun _ => 2 ^ 63 - 1 : Digits) i < 2 ^ 63) ∧
    (∀ i, pDigit i ≤ mask i) ∧ passSum looseMax 9 >>> 25 < 2 ^ 45 ∧
    19 * (passSum looseMax 9 >>> 25) + mask 0 < 2 ^ 26 * (2 ^ 25 + 1) := by decide +kernel

/-- AccumulatorsRepresentTheProduct: operands no pair of which wraps. -/
theorem witness_no_wrap : ∀ i j : Fin 10, 10 ≤ i.val + j.val →
    (fun k : Fin 10 => if k.val ≤ 4 then 5 else 0) i * (fun k : Fin 10 => if k.val ≤ 5 then 7 else 0) j = 0 := by decide

theorem witness_predicates : Predicate 0 ∧ Predicate 1 := by decide

/-- TwoSelectsSwap. -/
theorem witness_swap : (board pd pm1).err = false ∧ Instr.wf (board pd pm1).counts (.select 2 0 1 1) = true ∧
    Instr.wf (board pd pm1).counts (.select 3 1 0 1) = true ∧ (2 : FIdx) ≠ 3 ∧
    (board pd pm1).written ⟨.F, 0⟩ = true ∧ (board pd pm1).written ⟨.F, 1⟩ = true ∧
    (board pd pm1).written ⟨.W, 1⟩ = true ∧ (board pd pm1).readW 1 = 1 ∧ (board pd pm1).readW 0 = 0 := by decide +kernel

/-- BorrowChainIsCanonical, CanonicalVectorsAreUnique: values below p, at p and above. -/
theorem witness_tight : Tight (digits pm1) ∧ Tight (digits pd) ∧ Tight (digits tmax) ∧
    (∀ i, digits pd i ≤ mask i) ∧ P - 1 < P := by decide +kernel

/-- BitPositionsOfTheCodec: the last bit of limb 9. -/
theorem witness_bit : 24 < wd 9 ∧ (expo 9 + 24) / 8 < 32 ∧ 2 ^ 255 - 1 < 2 ^ 255 := by decide +kernel

/-- CodecRoundTrips, FromBytesRule, FromBytesOfAnyContents: a written buffer. -/
theorem witness_round_trip : (board tmax pd).err = false ∧ (board tmax pd).written ⟨.B, 0⟩ = true ∧
    Instr.wf (board tmax pd).counts (.fromBytes 2 0) = true ∧ Instr.wf (board tmax pd).counts (.toBytes 1 0) = true ∧
    Instr.wf (board tmax pd).counts (.fromBytes 2 1) = true ∧ Instr.wf (board tmax pd).counts (.toBytes 3 2) = true ∧
    (3 : BIdx) ≠ 1 ∧ Tight (digits ((board tmax pd).readF 0)) := by decide +kernel

/-- CommandFrame and OtherRegistersKeepTheirValues: a source of a command that retires. -/
theorem witness_other_register : exec (.relax 2 0) (board pd pd) =
      .next (((board pd pd).writeF 2 ((board pd pd).readF 0)).retire) ∧
    (board pd pd).written ⟨.F, 0⟩ = true ∧ (⟨.F, 0⟩ : Reg) ≠ destOf (.relax 2 0) :=
  ⟨rfl, by decide +kernel, by decide⟩

/-- ResultDependsOnlyOnSources: two engines that differ in a register that is no source. -/
theorem witness_same_sources : (board pd tmax).err = false ∧ (board pd pm1).err = false ∧
    (board pd pm1).counts = (board pd tmax).counts ∧ Instr.wf (board pd tmax).counts (.toBytes 1 0) = true ∧
    Tight (digits ((board pd tmax).readF 0)) ∧ (board pd tmax).readF 0 = (board pd pm1).readF 0 ∧
    (board pd tmax).readF 1 ≠ (board pd pm1).readF 1 := by decide +kernel

/-- UnwrittenCellsReadAsFreeValues: the last cell of the last register of each file, at its offset. -/
theorem witness_unwritten : (State.reset.limbCell 15 9).written = false ∧
    portOf State.reset.counts (offsetAt 0x7E4) = .limb 15 9 ∧ (State.reset.byteCell 3 31).written = false ∧
    portOf State.reset.counts (offsetAt 0x17C) = .bufWord 3 7 ∧ (31 : Fin 32).val / 4 = (7 : Fin 8).val ∧
    (State.reset.wordCell 7).written = false ∧ portOf State.reset.counts (offsetAt 0x05C) = .word 7 := by decide +kernel

/-- ViolatedPreconditionGivesFreeValues: a limb one above the tight bound, one above the loose bound, and the
predicate 2; the destinations are of each file. -/
theorem witness_violated : ((board (limbs [0x4000001]) (limbs [0xC000001])).writeW 2 2).err = false ∧
    (∀ i ∈ ([.add 2 0 0, .toBytes 1 0, .carry 2 1, .cmov 3 0 1 2, .select 2 0 1 2] : List Instr),
      i.wf ((board (limbs [0x4000001]) (limbs [0xC000001])).writeW 2 2).counts = true) ∧
    ¬ DataOk ((board (limbs [0x4000001]) (limbs [0xC000001])).writeW 2 2) (.add 2 0 0) ∧
    ¬ DataOk ((board (limbs [0x4000001]) (limbs [0xC000001])).writeW 2 2) (.toBytes 1 0) ∧
    ¬ DataOk ((board (limbs [0x4000001]) (limbs [0xC000001])).writeW 2 2) (.carry 2 1) ∧
    ¬ DataOk ((board (limbs [0x4000001]) (limbs [0xC000001])).writeW 2 2) (.cmov 3 0 1 2) ∧
    ¬ DataOk ((board (limbs [0x4000001]) (limbs [0xC000001])).writeW 2 2) (.select 2 0 1 2) := by
  unfold DataOk
  decide +kernel

/-- FromBytesOfAnyContents: a buffer nothing has written. -/
theorem witness_unwritten_buffer : State.reset.err = false ∧ Instr.wf State.reset.counts (.fromBytes 2 1) = true ∧
    State.reset.written ⟨.B, 1⟩ = false ∧ Instr.wf State.reset.counts (.toBytes 3 2) = true := by decide +kernel

theorem witness_legal_counts : (⟨1, 1, 1⟩ : Counts).Legal ∧ (⟨16, 16, 16⟩ : Counts).Legal := by decide

/-- StepKeepsTheInvariant: a state with written and unwritten cells and a command to issue. -/
theorem witness_inv : ((board pd tmax).withCommand 0x00010201).Inv ∧
    ∃ t, step ((board pd tmax).withCommand 0x00010201) = .next t := by
  refine ⟨⟨by decide +kernel, by decide +kernel, by decide +kernel, by decide +kernel, by decide +kernel,
    by decide +kernel⟩, ?_⟩
  exact ⟨_, rfl⟩

end Sys2Proof.Tests
end

section
/-! SUPPORT. The invariant after a reset (R42, R190). -/

namespace Sys2Proof.Machine

/-- A reset gives the invariant to any engine with legal counts, whatever its registers held. -/
theorem State.engineReset_inv {s : State} (h : s.counts.Legal) : s.engineReset.Inv := by
  obtain ⟨hF, hB, hW⟩ := s.engineReset_canon
  exact
    { counts := by simpa only [State.engineReset_counts] using h
      clear := fun _ => ⟨rfl, rfl⟩
      fault := fun herr => absurd herr (by simp)
      blankF := hF
      blankB := hB
      blankW := hW }

@[simp] theorem State.resetWith_counts (c : Counts) : (State.resetWith c).counts = c := by
  simp [State.counts, State.resetWith]

/-- The state after reset is a fixed point of reset. -/
theorem State.engineReset_resetWith (c : Counts) : (State.resetWith c).engineReset = State.resetWith c := by
  simp [State.engineReset, State.resetWith]

theorem State.resetWith_inv {c : Counts} (h : c.Legal) : (State.resetWith c).Inv := by
  rw [← State.engineReset_resetWith]
  exact State.engineReset_inv (by rwa [State.resetWith_counts])

/-- The default counts of R9 are legal. -/
theorem Config.counts_legal : Config.counts.Legal := by decide

/-- Settles O55: the state after reset is a reset of itself, and a reset of an engine with legal counts gives the
invariant.  That an unwritten cell holds 0 is the model's storage form (log entry 2). -/
theorem resetMeetsTheInvariant : Obligations.ResetMeetsTheInvariant :=
  ⟨State.resetWith_inv Config.counts_legal, fun _ => State.resetWith_inv⟩

end Sys2Proof.Machine
end

section
/-! SUPPORT. Everything one host operation can do to the engine (R52, R53, R89, R172, R190), and what each of these
effects keeps: the host's list and position, the register counts, the invariant. -/

namespace Sys2Proof.Machine

/-! ### The fault a command's own word raises -/

theorem decode_encode (i : Instr) : decode (encode i) = .ok i := by
  cases i <;> simp [decode, encode, fields_pack, acceptIf]

theorem wordFault_encode (c : Counts) (i : Instr) : wordFault c (encode i) = formFault c i := by
  simp [wordFault, decode_encode]

theorem wordFault_of_decode_error {c : Counts} {w : Word} {e : Reject} (h : decode w = .error e) :
    wordFault c w = some .illegalCommand := by
  simp [wordFault, h]

theorem formFault_of_not_inRange {c : Counts} {i : Instr} (h : i.inRange c = false) :
    formFault c i = some .regRange := by
  simp [formFault, any_outOfRange, h]

theorem formFault_of_not_noAlias {c : Counts} {i : Instr} (h : i.inRange c = true) (ha : i.noAlias = false) :
    formFault c i = some .aliased := by
  simp [formFault, any_outOfRange, any_aliased, h, ha]

/-! ### The effects of a host operation -/

/-- `t` is what one host operation, or the hard reset input, can make of the engine `s`. -/
inductive Effect (s : State) : State → Prop where
  /-- Ignored or discarded (R52, R54, R173). -/
  | ignored : Effect s s
  /-- A command word that faults (R172). -/
  | faulted {k : CommandFault} {w : Word} (h : wordFault s.counts w = some k) : Effect s (s.raiseFault k w)
  /-- A command that retires, its destination written (R89 step 5). -/
  | retired {r : Reg} {u : State} (h : WritesReg r s u) : Effect s u.retire
  /-- A reset, hard or soft (R190). -/
  | reset : Effect s s.engineReset
  /-- A host write of `W[k]` (R56). -/
  | wroteW (k : WIdx) (v : Word) : Effect s (s.writeW k v)
  /-- A host write of word `m` of `B[k]` (R57). -/
  | wroteBufWord (k : BIdx) (m : Fin 8) (v : Word) : Effect s (s.writeBufWord k m v)
  /-- A host write of limb `i` of `F[k]` (R58). -/
  | wroteLimb (k : FIdx) (i : Fin 10) (v : Word) : Effect s (s.writeLimb k i v)
  /-- A host read (R53). -/
  | read (v : Word) : Effect s (s.pushRead v)

theorem exec_effect (i : Instr) (s : State) : ∃ t, exec i s = .next t ∧ Effect s t := by
  rcases exec_cases i s with ⟨-, e⟩ | ⟨-, hr, e⟩ | ⟨-, hr, ha, e⟩ | ⟨-, -, u, hu, e⟩
  · exact ⟨s, e, .ignored⟩
  · exact ⟨_, e, .faulted (by rw [wordFault_encode, formFault_of_not_inRange hr])⟩
  · exact ⟨_, e, .faulted (by rw [wordFault_encode, formFault_of_not_noAlias hr ha])⟩
  · exact ⟨_, e, .retired hu⟩

theorem issueCommand_effect (w : Word) (s : State) : ∃ t, issueCommand w s = .next t ∧ Effect s t := by
  rcases issueCommand_cases w s with ⟨-, e⟩ | ⟨-, ⟨_, hd⟩, e⟩ | ⟨-, i, -, e⟩
  · exact ⟨s, e, .ignored⟩
  · exact ⟨_, e, .faulted (wordFault_of_decode_error hd)⟩
  · rw [e]
    exact exec_effect i s

theorem hostWrite_effect (off : Offset) (v : Word) (s : State) : ∃ t, hostWrite off v s = .next t ∧ Effect s t := by
  rcases hostWrite_cases off v s with
    ⟨-, e⟩ | ⟨-, -, e⟩ | ⟨k, -, e⟩ | ⟨k, m, -, e⟩ | ⟨k, i, -, e⟩ | e
  · rw [e]
    exact issueCommand_effect v s
  · exact ⟨_, e, .reset⟩
  · exact ⟨_, e, .wroteW k v⟩
  · exact ⟨_, e, .wroteBufWord k m v⟩
  · exact ⟨_, e, .wroteLimb k i v⟩
  · exact ⟨s, e, .ignored⟩

/-- Every host operation completes with one of the effects above. -/
theorem performOp_effect (op : HostOp) (s : State) : ∃ t, performOp op s = .next t ∧ Effect s t := by
  cases op with
  | write off v => exact hostWrite_effect off v s
  | read off => exact ⟨_, rfl, .read _⟩
  | hardReset => exact ⟨_, rfl, .reset⟩

/-! ### What every effect keeps -/

theorem Effect.keeps_host {s t : State} (h : Effect s t) :
    t.ops = s.ops ∧ t.pc = s.pc ∧ t.counts = s.counts := by
  cases h with
  | retired hu =>
    have ho := hu.onlyChanges.retire
    exact ⟨ho.control.ops, ho.control.pc, ho.counts⟩
  | ignored | faulted | reset | wroteW | wroteBufWord | wroteLimb | read => simp

/-- A change of storage alone keeps the invariant, where it keeps the storage form. -/
theorem State.Inv.of_onlyChanges {r : Reg} {s t : State} (h : s.Inv) (ho : OnlyChanges r s t)
    (hF : ∀ r ∈ t.f, ∀ i : Fin 10, Slot.Canon r[i]) (hB : ∀ r ∈ t.b, ∀ j : Fin 32, Slot.Canon r[j])
    (hW : ∀ r ∈ t.w, Slot.Canon r) : t.Inv where
  counts := by rw [ho.counts]; exact h.counts
  clear := by rw [ho.control.err, ho.control.cause, ho.control.errcmd]; exact h.clear
  fault := by rw [ho.counts, ho.control.err, ho.control.cause, ho.control.errcmd]; exact h.fault
  blankF := hF
  blankB := hB
  blankW := hW

theorem State.Inv.writesReg {r : Reg} {s u : State} (h : s.Inv) (hu : WritesReg r s u) : u.Inv := by
  have ho := hu.onlyChanges
  obtain ⟨file, k⟩ := r
  cases file <;> obtain ⟨x, rfl⟩ := hu
  · exact h.of_onlyChanges ho (State.writeF_canon h.blankF k x) h.blankB h.blankW
  · exact h.of_onlyChanges ho h.blankF (State.writeB_canon h.blankB k x) h.blankW
  · exact h.of_onlyChanges ho h.blankF h.blankB (State.writeW_canon h.blankW k x)

theorem State.Inv.raiseFault {s : State} (h : s.Inv) {k : CommandFault} {w : Word}
    (hw : wordFault s.counts w = some k) : (s.raiseFault k w).Inv where
  counts := h.counts
  clear := fun he => absurd he (by simp)
  fault := fun _ => ⟨k, hw, rfl⟩
  blankF := h.blankF
  blankB := h.blankB
  blankW := h.blankW

/-- The invariant says nothing about the host or the free counter. -/
theorem State.Inv.retire {s : State} (h : s.Inv) : s.retire.Inv :=
  ⟨h.counts, h.clear, h.fault, h.blankF, h.blankB, h.blankW⟩

theorem State.Inv.pushRead {s : State} (h : s.Inv) (v : Word) : (s.pushRead v).Inv :=
  ⟨h.counts, h.clear, h.fault, h.blankF, h.blankB, h.blankW⟩

theorem State.Inv.take {s : State} (h : s.Inv) (rest : List HostOp) : (s.take rest).Inv :=
  ⟨h.counts, h.clear, h.fault, h.blankF, h.blankB, h.blankW⟩

theorem Effect.keeps_inv {s t : State} (h : Effect s t) (hs : s.Inv) : t.Inv := by
  cases h with
  | ignored => exact hs
  | faulted hw => exact hs.raiseFault hw
  | retired hu => exact (hs.writesReg hu).retire
  | reset => exact State.engineReset_inv hs.counts
  | wroteW k v => exact hs.writesReg (r := ⟨.W, k⟩) ⟨v, rfl⟩
  | wroteBufWord k m v =>
    exact hs.of_onlyChanges (.writeBufWord s k m v) hs.blankF (State.writeBufWord_canon hs.blankB k m v) hs.blankW
  | wroteLimb k i v =>
    exact hs.of_onlyChanges (.writeLimb s k i v) (State.writeLimb_canon hs.blankF k i v) hs.blankB hs.blankW
  | read v => exact hs.pushRead v

/-! ### The step -/

/-- Settles O56: the step's one operation has an effect, and every effect keeps the invariant.  That an unwritten
cell holds 0 is the model's storage form (log entry 2). -/
theorem stepKeepsTheInvariant : Obligations.StepKeepsTheInvariant := by
  intro s t hs hstep
  cases hops : s.ops with
  | nil =>
    rw [step_nil hops] at hstep
    cases hstep
    exact hs
  | cons op rest =>
    obtain ⟨u, hu, he⟩ := performOp_effect op (s.take rest)
    rw [step_cons hops, hu] at hstep
    cases hstep
    exact he.keeps_inv (hs.take rest)

/-- Settles O54: with nothing to do the step is idle (log entry 6); any operation, the hard reset input among them
(log entry 7), has an effect, and no effect touches the host's list, its position or the counts. -/
theorem everyStepAnswersNext : Obligations.EveryStepAnswersNext := by
  refine fun s => ⟨step_nil, fun op rest hops => ?_⟩
  obtain ⟨t, ht, he⟩ := performOp_effect op (s.take rest)
  obtain ⟨hrest, hpc, hcounts⟩ := he.keeps_host
  exact ⟨t, by rw [step_cons hops, ht], hrest, hpc, hcounts⟩

end Sys2Proof.Machine
end

section
/-! SUPPORT. Digits of a number on the limb schedule: the canonical vector of a field element (R22 to R27, R110). -/

namespace Sys2Proof.Machine

/-- The digits of `n` on the schedule of R22: `Wd(i)` bits from bit `E(i)` on. -/
def digitsOf (n : Nat) : Digits := fun i => bits n (expo i) (wd i)

theorem digitsOf_le_mask (n : Nat) (i : Fin 10) : digitsOf n i ≤ mask i :=
  Nat.le_sub_one_of_lt (Nat.mod_lt _ (Nat.two_pow_pos _))

theorem expo_vals : expo 0 = 0 ∧ expo 1 = 26 ∧ expo 2 = 51 ∧ expo 3 = 77 ∧ expo 4 = 102 ∧ expo 5 = 128 ∧
    expo 6 = 153 ∧ expo 7 = 179 ∧ expo 8 = 204 ∧ expo 9 = 230 := by decide

/-- The digits of a number below 2^255 add up to it. -/
theorem eval_digitsOf {n : Nat} (h : n < 2 ^ 255) : eval (digitsOf n) = n := by
  rw [eval_eq]
  simp only [digitsOf, bits, expo_vals, wd_even, wd_odd]
  omega

/-- A bound on every limb, limb by limb, for `omega`. -/
theorem limb_bounds {x b : Digits} (h : ∀ i, x i ≤ b i) :
    x 0 ≤ b 0 ∧ x 1 ≤ b 1 ∧ x 2 ≤ b 2 ∧ x 3 ≤ b 3 ∧ x 4 ≤ b 4 ∧ x 5 ≤ b 5 ∧ x 6 ≤ b 6 ∧ x 7 ≤ b 7 ∧
      x 8 ≤ b 8 ∧ x 9 ≤ b 9 :=
  ⟨h 0, h 1, h 2, h 3, h 4, h 5, h 6, h 7, h 8, h 9⟩

/-- A vector within its masks holds the digits of its value. -/
theorem digitsOf_eval {x : Digits} (h : ∀ i, x i ≤ mask i) : digitsOf (eval x) = x := by
  have hb := limb_bounds h
  simp only [mask, wd_even, wd_odd] at hb
  funext i
  revert i
  refine forall_limb ?_ ?_ ?_ ?_ ?_ ?_ ?_ ?_ ?_ ?_ <;>
    simp only [digitsOf, bits, eval_eq, expo_vals, wd_even, wd_odd] <;> omega

/-- R27: a tight vector is loose. -/
theorem Tight.loose {x : Digits} (h : Tight x) : Loose x := fun i =>
  (h i).trans (Nat.le_mul_of_pos_left _ (by decide))

/-- R27: the value of a tight vector, at most that of the vector with every limb at its bound. -/
theorem Tight.eval_le {x : Digits} (h : Tight x) : eval x ≤
    2 ^ 255 + 2 ^ 26 + 2 ^ 51 + 2 ^ 77 + 2 ^ 102 + 2 ^ 128 + 2 ^ 153 + 2 ^ 179 + 2 ^ 204 + 2 ^ 230 := by
  have hb := limb_bounds h
  simp only [tightMax, wd_even, wd_odd] at hb
  rw [eval_eq]
  omega

/-- Settles O50: two vectors within their masks are the digits of their values, and the digits of a number below P
are a canonical vector of it. -/
theorem canonicalVectorsAreUnique : Obligations.CanonicalVectorsAreUnique := by
  refine ⟨fun x y hx hy hxy => ?_, fun n hn => ?_, fun x hx => ⟨hx.loose, hx.eval_le⟩, by decide⟩
  · rw [← digitsOf_eval hx, hxy, digitsOf_eval hy]
  · have hv : eval (digitsOf n) = n := eval_digitsOf (hn.trans (by decide))
    exact ⟨digitsOf n, ⟨by rwa [hv], digitsOf_le_mask n⟩, hv⟩

/-- Settles O30: the tables of R22, R24 and R110, one limb at a time; the two values are sums of powers of 2. -/
theorem digitsOfPAndBias : Obligations.DigitsOfPAndBias :=
  ⟨by decide, by decide, fun _ => rfl, by decide, by decide, fun _ => rfl, by decide, by decide, by decide,
    by decide, by decide, by decide, by decide, by decide, fun _ => rfl, by decide, by decide⟩

end Sys2Proof.Machine
end

section
/-! SUPPORT. What a command does to the registers it does not write (R41, R198), and what its result depends on
(R39). -/

namespace Sys2Proof.Machine

/-! ### Registers a command leaves alone -/

/-- The storage of a register is the same in both states. -/
def SameCells (s t : State) (r : Reg) : Prop :=
  match r.file with
  | .F => t.f[r.idx.val]? = s.f[r.idx.val]?
  | .B => t.b[r.idx.val]? = s.b[r.idx.val]?
  | .W => t.w[r.idx.val]? = s.w[r.idx.val]?

theorem SameCells.written {s t : State} {r : Reg} (h : SameCells s t r) : t.written r = s.written r := by
  obtain ⟨file, k⟩ := r
  cases file <;> simp only [SameCells] at h <;> simp [State.written, List.getD_eq_getElem?_getD, h]

/-- Two states with the same storage read a written register alike, whatever their free counters (R43 is about the
others). -/
theorem SameCells.sameRead {s t : State} {r : Reg} (h : SameCells s t r) (hw : s.written r = true) :
    SameRead s t r := by
  obtain ⟨file, k⟩ := r
  cases file with
  | F => exact (State.readF_of_written h hw).symm
  | B => exact (State.readB_of_written h hw).symm
  | W => exact (State.readW_of_written (State.wordCell_congr h) hw).symm

theorem SameCells.raiseFault (s : State) (k : CommandFault) (w : Word) (r : Reg) :
    SameCells s (s.raiseFault k w) r := by
  obtain ⟨file, _⟩ := r
  cases file <;> rfl

theorem SameCells.refl (s : State) (r : Reg) : SameCells s s r := by
  obtain ⟨file, _⟩ := r
  cases file <;> rfl

theorem OnlyChanges.sameCells {d r : Reg} {s t : State} (h : OnlyChanges d s t) (hne : r ≠ d) :
    SameCells s t r := by
  obtain ⟨file, k⟩ := r
  have hk : ¬(d.file = file ∧ d.idx.val = k.val) := fun ⟨hf, hi⟩ => hne (by
    cases d
    cases hf
    cases Fin.ext hi
    rfl)
  cases file with
  | F => exact h.f k.val hk
  | B => exact h.b k.val hk
  | W => exact h.w k.val hk

/-- Whether it is discarded, faults or retires, a command leaves the storage of every register but its destination. -/
theorem exec_sameCells {i : Instr} {s t : State} (h : exec i s = .next t) {r : Reg} (hne : r ≠ destOf i) :
    SameCells s t r := by
  rcases exec_cases i s with ⟨-, e⟩ | ⟨-, -, e⟩ | ⟨-, -, -, e⟩ | ⟨-, -, u, hu, e⟩ <;>
    rw [e] at h <;> cases h
  · exact SameCells.refl s r
  · exact SameCells.raiseFault s _ _ r
  · exact SameCells.raiseFault s _ _ r
  · exact hu.onlyChanges.retire.sameCells hne

/-- Settles O52: the storage of every register but the destination is as before, and a written register reads as its
storage. -/
theorem otherRegistersKeepTheirValues : Obligations.OtherRegistersKeepTheirValues := by
  intro i s t r hexec hw hne
  have hc := exec_sameCells hexec hne
  exact ⟨by rw [hc.written, hw], hc.sameRead hw⟩

/-! ### The result of a command -/

theorem destOf_lt_of_wf {c : Counts} {i : Instr} (h : i.wf c = true) :
    (destOf i).idx.val < countOf c (destOf i).file := by
  have hr : i.inRange c = true := by
    simp only [Instr.wf, Bool.and_eq_true] at h
    exact h.1
  have hall := any_outOfRange c i
  rw [hr, Bool.not_true, List.any_eq_false] at hall
  simpa using hall (destOf i) List.mem_cons_self

/-- A command accepted by two engines completes in both, and a register its effect leaves alike reads alike. -/
theorem command_sameRead {i : Instr} {s s' : State} {e : State → State} {r : Reg} (herr : s.err = false)
    (herr' : s'.err = false) (hwf : i.wf s.counts = true) (hwf' : i.wf s'.counts = true)
    (h : SameRead (e s).retire (e s').retire r) :
    ∃ t t', command i e s = .next t ∧ command i e s' = .next t' ∧ SameRead t t' r :=
  ⟨_, _, by rw [command, State.perform_wf herr hwf], by rw [command, State.perform_wf herr' hwf'], h⟩

section

variable {s s' : State} {k : Fin 16}

theorem sameRead_writeF {x x' : Limbs} (hk : k.val < s.f.length) (hk' : k.val < s'.f.length) (hx : x = x') :
    SameRead (s.writeF k x).retire (s'.writeF k x').retire ⟨.F, k⟩ :=
  (s.readF_retire_writeF x hk).trans (hx.trans (s'.readF_retire_writeF x' hk').symm)

theorem sameRead_writeB {x x' : Buffer} (hk : k.val < s.b.length) (hk' : k.val < s'.b.length) (hx : x = x') :
    SameRead (s.writeB k x).retire (s'.writeB k x').retire ⟨.B, k⟩ :=
  (s.readB_retire_writeB x hk).trans (hx.trans (s'.readB_retire_writeB x' hk').symm)

theorem sameRead_writeW {v v' : Word} (hk : k.val < s.w.length) (hk' : k.val < s'.w.length) (hv : v = v') :
    SameRead (s.writeW k v).retire (s'.writeW k v').retire ⟨.W, k⟩ :=
  (s.readW_retire_writeW v hk).trans (hv.trans (s'.readW_retire_writeW v' hk').symm)

end

/-- Settles O53: under its precondition the value a command writes is computed from the reads of its sources, one
arm per list of sources. -/
theorem resultDependsOnlyOnSources : Obligations.ResultDependsOnlyOnSources := by
  intro i s s' herr herr' hcounts hwf hok hsrc
  have hwf' : i.wf s'.counts = true := by rwa [hcounts]
  have hk := destOf_lt_of_wf hwf
  have hk' := destOf_lt_of_wf hwf'
  have done {e : State → State} := command_sameRead (e := e) (r := destOf i) herr herr' hwf hwf'
  cases i with simp only [DataOk] at hok
  | add d a b | sub d a b | carryMul d a b =>
    obtain ⟨ha, hb⟩ : s.readF a = s'.readF a ∧ s.readF b = s'.readF b := by
      simpa [sourcesOf, SameRead] using hsrc
    exact done (sameRead_writeF hk hk' (by simp only [← ha, ← hb, if_pos hok]))
  | opp d a | carry d a | carrySquare d a | carryScmulConst d a =>
    have ha : s.readF a = s'.readF a := hsrc ⟨.F, a⟩ List.mem_cons_self
    exact done (sameRead_writeF hk hk' (by simp only [← ha, if_pos hok]))
  | relax d a => exact done (sameRead_writeF hk hk' (hsrc ⟨.F, a⟩ List.mem_cons_self))
  | cmov d a b p =>
    obtain ⟨ha, hb, hp⟩ : s.readW a = s'.readW a ∧ s.readW b = s'.readW b ∧ s.readW p = s'.readW p := by
      simpa [sourcesOf, SameRead] using hsrc
    exact done (sameRead_writeW hk hk' (by simp only [← ha, ← hb, ← hp, if_pos hok]))
  | select d a b p =>
    obtain ⟨ha, hb, hp⟩ : s.readF a = s'.readF a ∧ s.readF b = s'.readF b ∧ s.readW p = s'.readW p := by
      simpa [sourcesOf, SameRead] using hsrc
    exact done (sameRead_writeF hk hk' (by simp only [← ha, ← hb, ← hp, if_pos hok]))
  | toBytes d a =>
    have ha : s.readF a = s'.readF a := hsrc ⟨.F, a⟩ List.mem_cons_self
    exact done (sameRead_writeB hk hk' (by simp only [← ha, if_pos hok]))
  | fromBytes d a =>
    have ha : s.readB a = s'.readB a := hsrc ⟨.B, a⟩ List.mem_cons_self
    exact done (sameRead_writeF hk hk' (by rw [ha]))

end Sys2Proof.Machine
end

section
/-! SUPPORT. Reads of cells nothing has written since reset (R42, R43, U3). -/

namespace Sys2Proof.Machine

/-! ### An unwritten cell reads as the free value at the counter -/

theorem State.readLimb_of_unwritten {s : State} {k : FIdx} {i : Fin 10} (h : (s.limbCell k i).written = false) :
    s.readLimb k i = Config.unwrittenLimb s.free k.val i.val :=
  Slot.read_of_unwritten _ h

theorem State.readByte_of_unwritten {s : State} {k : BIdx} {j : Fin 32} (h : (s.byteCell k j).written = false) :
    s.readByte k j = Config.unwrittenByte s.free k.val j.val :=
  Slot.read_of_unwritten _ h

theorem State.readW_of_unwritten {s : State} {k : WIdx} (h : (s.wordCell k).written = false) :
    s.readW k = Config.unwrittenWord s.free k.val :=
  Slot.read_of_unwritten _ h

/-! ### What the host reads at the offset of a register -/

section

variable {s : State} {off : Offset}

theorem State.windowRead_limb {k : FIdx} {i : Fin 10} (hp : portOf s.counts off = .limb k i) :
    s.windowRead off = s.readLimb k i := by
  simp only [State.windowRead, hp]

theorem State.windowRead_bufWord {k : BIdx} {m : Fin 8} (hp : portOf s.counts off = .bufWord k m) :
    s.windowRead off = s.readBufWord k m := by
  simp only [State.windowRead, hp]

theorem State.windowRead_word {k : WIdx} (hp : portOf s.counts off = .word k) : s.windowRead off = s.readW k := by
  simp only [State.windowRead, hp]

end

/-- Byte `t` of a port word is byte `t` of the four it is made of (R57). -/
theorem bits_wordOfBytes (b : Fin 4 → Byte) (t : Fin 4) :
    bits (wordOfBytes (b 0) (b 1) (b 2) (b 3)).toNat (8 * t.val) 8 = (b t).toNat := by
  have h0 := (b 0).isLt
  have h1 := (b 1).isLt
  have h2 := (b 2).isLt
  have h3 := (b 3).isLt
  rw [wordOfBytes_toNat, bits]
  fin_cases t <;> simp <;> omega

/-- Byte `j` of `B[k]`, in the word of the window that holds it (R57). -/
theorem State.bits_readBufWord (s : State) (k : BIdx) {m : Fin 8} {j : Fin 32} (hj : j.val / 4 = m.val) :
    bits (s.readBufWord k m).toNat (8 * (j.val % 4)) 8 = (s.readByte k j).toNat := by
  have hidx : byteIndex m ⟨j.val % 4, by omega⟩ = j := by
    apply Fin.ext
    simp only [byteIndex]
    omega
  have h := bits_wordOfBytes (fun t => s.readByte k (byteIndex m t)) ⟨j.val % 4, by omega⟩
  rwa [hidx] at h

/-! ### A host read leaves an unwritten cell unwritten, and the next read draws at the next counter -/

theorem hostRead_unwrittenLimb {s : State} {k : FIdx} {i : Fin 10} (h : (s.limbCell k i).written = false)
    {off : Offset} (hp : portOf s.counts off = .limb k i) : ∃ t, performOp (.read off) s = .next t ∧
      t.reads = Config.unwrittenLimb s.free k.val i.val :: s.reads ∧ (t.limbCell k i).written = false ∧
      t.windowRead off = Config.unwrittenLimb (s.free + 1) k.val i.val := by
  refine ⟨s.pushRead (s.windowRead off), rfl, ?_, h,
    (State.windowRead_limb (s := s.pushRead _) hp).trans (State.readLimb_of_unwritten h)⟩
  rw [State.pushRead_reads, State.windowRead_limb hp, State.readLimb_of_unwritten h]

theorem hostRead_unwrittenWord {s : State} {k : WIdx} (h : (s.wordCell k).written = false) {off : Offset}
    (hp : portOf s.counts off = .word k) : ∃ t, performOp (.read off) s = .next t ∧
      t.reads = Config.unwrittenWord s.free k.val :: s.reads ∧ (t.wordCell k).written = false ∧
      t.windowRead off = Config.unwrittenWord (s.free + 1) k.val := by
  refine ⟨s.pushRead (s.windowRead off), rfl, ?_, h,
    (State.windowRead_word (s := s.pushRead _) hp).trans (State.readW_of_unwritten h)⟩
  rw [State.pushRead_reads, State.windowRead_word hp, State.readW_of_unwritten h]

/-- The byte of an unwritten cell in the word the host reads. -/
theorem windowRead_unwrittenByte {s : State} {k : BIdx} {j : Fin 32} (h : (s.byteCell k j).written = false)
    {off : Offset} {m : Fin 8} (hp : portOf s.counts off = .bufWord k m) (hj : j.val / 4 = m.val) :
    bits (s.windowRead off).toNat (8 * (j.val % 4)) 8 = (Config.unwrittenByte s.free k.val j.val).toNat := by
  rw [State.windowRead_bufWord hp, s.bits_readBufWord k hj, State.readByte_of_unwritten h]

/-- Settles O57: an unmarked cell reads as its free value at the counter, the host's read moves the counter on and
writes no mark, and a reset clears every mark (log entries 1 and 2). -/
theorem unwrittenCellsReadAsFreeValues : Obligations.UnwrittenCellsReadAsFreeValues := by
  refine fun s => ⟨fun k i h => ⟨?_, fun _ hp => hostRead_unwrittenLimb h hp⟩,
    fun k j h => ⟨?_, fun off m hp hj => ?_⟩,
    fun k h => ⟨State.readW_of_unwritten h, fun _ hp => hostRead_unwrittenWord h hp⟩,
    s.limbCell_engineReset, s.byteCell_engineReset, s.wordCell_engineReset⟩
  · exact (s.getElem_readF k i.val i.isLt).trans (State.readLimb_of_unwritten h)
  · exact (s.getElem_readB k j.val j.isLt).trans (State.readByte_of_unwritten h)
  · exact ⟨windowRead_unwrittenByte h hp hj, s.pushRead (s.windowRead off), rfl, h,
      windowRead_unwrittenByte (s := s.pushRead _) h hp hj⟩

end Sys2Proof.Machine
end

section
/-! SUPPORT. The control registers as the host reads and writes them (R33 to R38), and the state after reset (R42). -/

namespace Sys2Proof.Machine

theorem portOf_status (c : Counts) : portOf c (offsetAt 0x004) = .status := by
  simp [portOf, byteOffset, offsetAt, controlPort]

theorem portOf_cause (c : Counts) : portOf c (offsetAt 0x008) = .cause := by
  simp [portOf, byteOffset, offsetAt, controlPort]

theorem portOf_errcmd (c : Counts) : portOf c (offsetAt 0x00C) = .errcmd := by
  simp [portOf, byteOffset, offsetAt, controlPort]

/-! ### Issuing a command -/

theorem exec_halted {s : State} (h : s.err = true) (i : Instr) : exec i s = .next s := by
  obtain ⟨e, he, -⟩ := exec_shape i s
  rw [he, State.perform_halted h]

/-- A word that decodes is issued by executing it, discarded or not (R89, log entry 9). -/
theorem issueCommand_of_decode {w : Word} {i : Instr} (h : decode w = .ok i) (s : State) :
    issueCommand w s = exec i s := by
  rcases issueCommand_cases w s with ⟨herr, e⟩ | ⟨-, ⟨_, hd⟩, -⟩ | ⟨-, j, hd, e⟩
  · rw [e, exec_halted herr]
  · simp [h] at hd
  · obtain rfl : i = j := by simpa [h] using hd
    exact e

theorem hostWrite_cmd (w : Word) (s : State) : hostWrite (offsetAt 0x000) w s = issueCommand w s := by
  simp [hostWrite, portOf_cmd]

/-- Settles O6: the step takes the operation, the window passes the word to the decoder. -/
theorem stepExecutesTheWrittenCommand : Obligations.StepExecutesTheWrittenCommand := by
  intro s w i rest hops hdecode
  calc step s = performOp (.write (offsetAt 0x000) w) (s.take rest) := step_cons hops
    _ = issueCommand w (s.take rest) := hostWrite_cmd w _
    _ = exec i (s.take rest) := issueCommand_of_decode hdecode _

/-! ### The state after reset -/

theorem State.resetWith_unwritten (c : Counts) : (State.resetWith c).Unwritten := by
  refine ⟨fun r hr i => ?_, fun r hr j => ?_, fun r hr => ?_⟩ <;> rw [List.eq_of_mem_replicate hr]
  · simp [FReg.blank]
  · simp [BReg.blank]
  · rfl

/-- Settles O14: UNSPECIFIED is read as not written (log entry 2). -/
theorem resetState : Obligations.ResetState :=
  ⟨fun c => ⟨State.resetWith_counts c, rfl, rfl, rfl, State.resetWith_unwritten c⟩, rfl⟩

/-! ### CTRL, STATUS, CAUSE and ERRCMD -/

theorem hostWrite_ctrl (v : Word) (s : State) :
    hostWrite (offsetAt 0x010) v s = .next (if v.getLsbD 0 then s.engineReset else s) := by
  simp only [hostWrite, portOf_ctrl]

/-- Bit 0 of a word, as a number and as a Boolean. -/
theorem bits_zero_one (v : Word) : bits v.toNat 0 1 = (v.getLsbD 0).toNat := by
  rw [bits, BitVec.getLsbD, Nat.testBit_zero]
  rcases Nat.mod_two_eq_zero_or_one v.toNat with h | h <;> simp [h]

/-- Settles O16: the written value acts by its bit 0 alone. -/
theorem ctrlRegister : Obligations.CtrlRegister := by
  intro s v
  rw [bits_zero_one, hostWrite_ctrl]
  refine ⟨fun h => ?_, fun h => ?_, ?_⟩
  · rw [if_pos (by simpa using h)]
  · rw [if_neg (by simpa using h)]
  · simp only [State.windowRead, portOf_ctrl]

theorem State.statusWord_toNat (s : State) : s.statusWord.toNat = s.err.toNat := by
  cases h : s.err <;> simp [State.statusWord, h]

theorem State.causeWord_toNat (s : State) : s.causeWord.toNat = s.cause.toNat := by
  have := s.cause.isLt
  simp only [State.causeWord, BitVec.zeroExtend, BitVec.toNat_setWidth]
  omega

/-- Settles O17: the three offsets are the three registers' own ports, which a host write leaves alone. -/
theorem statusRegistersReadOnly : Obligations.StatusRegistersReadOnly := by
  intro s
  simp only [State.windowRead, hostWrite, portOf_status, portOf_cause, portOf_errcmd]
  exact ⟨s.statusWord_toNat, s.causeWord_toNat, rfl, fun _ => ⟨trivial, trivial, trivial⟩⟩

end Sys2Proof.Machine
end

section
/-! SUPPORT. The map of the window (R51, R54): the offset of every port, and the port of every offset. -/

namespace Sys2Proof.Machine

theorem byteOffset_lt (off : Offset) : byteOffset off < 2048 := by
  have := off.isLt
  simp only [byteOffset]
  omega

theorem offsetAt_byteOffset (off : Offset) : offsetAt (byteOffset off) = off := by
  simp [offsetAt, byteOffset]

theorem eq_offsetAt {off : Offset} {n : Nat} (h : byteOffset off = n) : off = offsetAt n := by
  rw [← h, offsetAt_byteOffset]

/-! ### The four groups of ports: a port that is not reserved says where it is -/

theorem controlPort_exact {n : Nat} (h : controlPort n ≠ .reserved) (c : Counts) :
    (controlPort n).present c ∧ n = offsetOfPort (controlPort n) := by
  unfold controlPort at h ⊢
  split_ifs at h ⊢ with h0 h4 h8 hC h10
  · exact ⟨trivial, h0⟩
  · exact ⟨trivial, h4⟩
  · exact ⟨trivial, h8⟩
  · exact ⟨trivial, hC⟩
  · exact ⟨trivial, h10⟩
  · exact absurd rfl h

theorem wordPort_exact {c : Counts} {n : Nat} (hn : n < 64) (h4 : n % 4 = 0) (h : wordPort c n ≠ .reserved) :
    (wordPort c n).present c ∧ 0x040 + n = offsetOfPort (wordPort c n) := by
  unfold wordPort at h ⊢
  split_ifs at h ⊢ with hk
  · simp only [Port.present, offsetOfPort, Fin.val_ofNat]
    omega
  · exact absurd rfl h

theorem bufPort_exact {c : Counts} {n : Nat} (hn : n < 512) (h4 : n % 4 = 0) (h : bufPort c n ≠ .reserved) :
    (bufPort c n).present c ∧ 0x100 + n = offsetOfPort (bufPort c n) := by
  unfold bufPort at h ⊢
  split_ifs at h ⊢ with hk
  · simp only [Port.present, offsetOfPort, Fin.val_ofNat]
    omega
  · exact absurd rfl h

theorem limbPort_exact {c : Counts} {n : Nat} (hn : n < 1024) (h4 : n % 4 = 0) (h : limbPort c n ≠ .reserved) :
    (limbPort c n).present c ∧ 0x400 + n = offsetOfPort (limbPort c n) := by
  unfold limbPort at h ⊢
  split_ifs at h ⊢ with hk
  · simp only [Port.present, offsetOfPort, Fin.val_ofNat]
    omega
  · exact absurd rfl h

/-- A port that is not reserved belongs to a register that exists, and stands at that register's offset. -/
theorem portOf_exact {c : Counts} {off : Offset} (h : portOf c off ≠ .reserved) :
    (portOf c off).present c ∧ byteOffset off = offsetOfPort (portOf c off) := by
  have hlt := byteOffset_lt off
  have h4 : byteOffset off % 4 = 0 := by simp [byteOffset]
  unfold portOf at h ⊢
  generalize byteOffset off = n at h hlt h4 ⊢
  split_ifs at h ⊢ with hc hw hr hb hr'
  · exact controlPort_exact h c
  · have := wordPort_exact (by omega) (by omega) h
    rwa [Nat.add_sub_cancel' (by omega)] at this
  · exact absurd rfl h
  · have := bufPort_exact (by omega) (by omega) h
    rwa [Nat.add_sub_cancel' (by omega)] at this
  · exact absurd rfl h
  · have := limbPort_exact (by omega) (by omega) h
    rwa [Nat.add_sub_cancel' (by omega)] at this

/-- The same, of a port that is known. -/
theorem portOf_eq_exact {c : Counts} {off : Offset} {p : Port} (hp : portOf c off = p) (h : p ≠ .reserved) :
    p.present c ∧ byteOffset off = offsetOfPort p := by
  subst hp
  exact portOf_exact h

theorem portOf_offsetOfPort {c : Counts} {p : Port} (h : p.present c) : portOf c (offsetAt (offsetOfPort p)) = p := by
  cases p with
  | cmd => exact portOf_cmd c
  | status => exact portOf_status c
  | cause => exact portOf_cause c
  | errcmd => exact portOf_errcmd c
  | ctrl => exact portOf_ctrl c
  | word k => exact portOf_word c k h
  | bufWord k m => exact portOf_bufWord c k m h
  | limb k i => exact portOf_limb c k i h
  | reserved => exact h.elim

/-- Settles O19: each register is found at its offset, and an offset that is not reserved is its port's own. -/
theorem windowMapIsExact : Obligations.WindowMapIsExact :=
  ⟨fun _ _ => portOf_offsetOfPort, fun _ _ => portOf_exact⟩

/-- Settles O25: the platform's condition is that the address is the base plus a multiple of 4 below 2048, which is
what a byte offset of the window is.  An access that is not aligned reaches no word (U7, log entry 10). -/
theorem platformAddressesOfTheWindow : Obligations.PlatformAddressesOfTheWindow := by
  intro addr off
  have hlt := byteOffset_lt off
  have h4 : byteOffset off % 4 = 0 := by simp [byteOffset]
  unfold platformOffset
  constructor
  · intro h
    split_ifs at h with hin
    obtain ⟨hbase, hend, haligned⟩ := hin
    have hoff : byteOffset off = (addr - Config.feeBase) / 4 * 4 := by
      rw [← Option.some.inj h]
      exact byteOffset_offsetAt _ (by omega)
    omega
  · rintro rfl
    rw [Nat.add_sub_cancel_left, offsetAt_byteOffset, if_pos (by omega)]

end Sys2Proof.Machine
end

section
/-! SUPPORT. Host accesses to the window: what a read returns and what a write does, at each kind of port (R52 to R54,
R56 to R58). -/

namespace Sys2Proof.Machine

/-! ### Whole registers, cell by cell -/

theorem State.readF_limb (s : State) (k : FIdx) (i : Fin 10) : (s.readF k)[i] = s.readLimb k i :=
  s.getElem_readF k i.val i.isLt

theorem State.readB_byte (s : State) (k : BIdx) (j : Fin 32) : (s.readB k)[j] = s.readByte k j :=
  s.getElem_readB k j.val j.isLt

theorem byteIndex_div (m : Fin 8) (q : Fin 4) : (byteIndex m q).val / 4 = m.val := by
  simp only [byteIndex]
  omega

theorem byteIndex_mod (m : Fin 8) (q : Fin 4) : (byteIndex m q).val % 4 = q.val := by
  simp only [byteIndex]
  omega

theorem byteOfWord_toNat (v : Word) (t : Nat) : (byteOfWord v t).toNat = bits v.toNat (8 * t) 8 := by
  simp [byteOfWord, bits]

theorem leList_ofFn {n : Nat} (b : Fin n → Byte) :
    leList (List.ofFn b) = ∑ j : Fin n, (b j).toNat * 2 ^ (8 * j.val) := by
  induction n with
  | zero => rfl
  | succ n ih =>
    rw [List.ofFn_succ, leList, ih, Fin.sum_univ_succ, Finset.mul_sum]
    congr 1
    · simp
    · refine Finset.sum_congr rfl fun j _ => ?_
      rw [Fin.val_succ, Nat.mul_succ, pow_add]
      ring

/-- A sum over the bytes of a buffer, word by word of the window (R57). -/
theorem sum_bytes_by_word (g : Fin 32 → Nat) : ∑ j, g j = ∑ m : Fin 8, ∑ q : Fin 4, g (byteIndex m q) := by
  have hidx : ∀ p : Fin 8 × Fin 4, finProdFinEquiv p = byteIndex p.1 p.2 := fun p =>
    Fin.ext (Nat.add_comm p.2.val (4 * p.1.val))
  calc ∑ j, g j = ∑ p : Fin 8 × Fin 4, g (finProdFinEquiv p) :=
        (Equiv.sum_comp (finProdFinEquiv (m := 8) (n := 4)) g).symm
    _ = ∑ p : Fin 8 × Fin 4, g (byteIndex p.1 p.2) := by simp only [hidx]
    _ = ∑ m : Fin 8, ∑ q : Fin 4, g (byteIndex m q) := Fintype.sum_prod_type _

theorem State.readBufWord_toNat (s : State) (k : BIdx) (m : Fin 8) :
    (s.readBufWord k m).toNat = ∑ q : Fin 4, (s.readByte k (byteIndex m q)).toNat * 2 ^ (8 * q.val) := by
  rw [State.readBufWord, wordOfBytes_toNat, Fin.sum_univ_four]
  simp

/-- The eight words of a buffer, word 0 least significant, are the integer it encodes (R29, R57). -/
theorem State.leValue_readB (s : State) (k : BIdx) :
    leValue (s.readB k) = ∑ m : Fin 8, (s.readBufWord k m).toNat * 2 ^ (32 * m.val) := by
  rw [leValue, State.readB, Vector.toList_ofFn, leList_ofFn, sum_bytes_by_word]
  refine Finset.sum_congr rfl fun m _ => ?_
  rw [State.readBufWord_toNat, Finset.sum_mul]
  refine Finset.sum_congr rfl fun q _ => ?_
  have hpos : 8 * (byteIndex m q).val = 8 * q.val + 32 * m.val := by
    simp only [byteIndex]
    omega
  rw [hpos, pow_add, mul_assoc]

/-! ### Host reads -/

/-- A host read moves the free counter on, which only unwritten cells see (R43, R53). -/
theorem State.windowRead_pushRead (s : State) (v : Word) {off : Offset}
    (hw : ∀ r, (portOf s.counts off).reg = some r → s.written r = true) :
    (s.pushRead v).windowRead off = s.windowRead off := by
  cases hp : portOf s.counts off with
  | word k =>
    have hk : s.written ⟨.W, k⟩ = true := hw _ (by rw [hp]; rfl)
    rw [State.windowRead_word hp, State.windowRead_word (s := s.pushRead v) hp]
    exact State.readW_of_written rfl hk
  | bufWord k m =>
    have hk : s.written ⟨.B, k⟩ = true := hw _ (by rw [hp]; rfl)
    have hj : ∀ j, (s.pushRead v).readByte k j = s.readByte k j := fun j =>
      State.readByte_of_written rfl ((s.written_B k).1 hk j)
    rw [State.windowRead_bufWord hp, State.windowRead_bufWord (s := s.pushRead v) hp]
    simp only [State.readBufWord, hj]
  | limb k i =>
    have hk : s.written ⟨.F, k⟩ = true := hw _ (by rw [hp]; rfl)
    rw [State.windowRead_limb hp, State.windowRead_limb (s := s.pushRead v) hp]
    exact State.readLimb_of_written rfl ((s.written_F k).1 hk i)
  | status | cause | errcmd =>
    simp only [State.windowRead, State.pushRead_counts, hp]
    rfl
  | cmd | ctrl | reserved => simp only [State.windowRead, State.pushRead_counts, hp]

/-- Settles O18: a read only adds to what the host has read (log entry 8), and each offset reads as its own port. -/
theorem readsHaveNoSideEffect : Obligations.ReadsHaveNoSideEffect := by
  intro s off
  refine ⟨⟨_, rfl, rfl, rfl, rfl, rfl, rfl, rfl, rfl, rfl, rfl, fun _ => s.windowRead_pushRead _⟩,
    ?_, fun h => ?_, fun h => ?_, fun h => ?_, fun _ hp => State.windowRead_word hp,
    fun _ _ hp => State.windowRead_bufWord hp,
    fun k i hp => (State.windowRead_limb hp).trans (s.readF_limb k i).symm⟩
  · rintro (h | h | hp)
    · simp only [State.windowRead, eq_offsetAt h, portOf_cmd]
    · simp only [State.windowRead, eq_offsetAt h, portOf_ctrl]
    · simp only [State.windowRead, hp]
  · simp only [State.windowRead, eq_offsetAt h, portOf_status]
  · simp only [State.windowRead, eq_offsetAt h, portOf_cause]
  · simp only [State.windowRead, eq_offsetAt h, portOf_errcmd]

/-! ### Host writes -/

section

variable {s : State} {off : Offset}

theorem hostWrite_word {k : WIdx} (hp : portOf s.counts off = .word k) (v : Word) :
    hostWrite off v s = .next (s.writeW k v) := by
  simp only [hostWrite, hp]

theorem hostWrite_bufWord {k : BIdx} {m : Fin 8} (hp : portOf s.counts off = .bufWord k m) (v : Word) :
    hostWrite off v s = .next (s.writeBufWord k m v) := by
  simp only [hostWrite, hp]

theorem hostWrite_limb {k : FIdx} {i : Fin 10} (hp : portOf s.counts off = .limb k i) (v : Word) :
    hostWrite off v s = .next (s.writeLimb k i v) := by
  simp only [hostWrite, hp]

/-- A write of a data register's port stores the value there and nowhere else (R52). -/
theorem hostWrite_of_reg {r : Reg} (hr : (portOf s.counts off).reg = some r) (v : Word) :
    ∃ t, hostWrite off v s = .next t ∧ OnlyChanges r s t ∧ t.windowRead off = v := by
  cases hp : portOf s.counts off with
  | word k =>
    obtain ⟨hk, -⟩ := portOf_eq_exact hp (by simp)
    obtain rfl : (⟨.W, k⟩ : Reg) = r := by simpa [hp, Port.reg] using hr
    exact ⟨_, hostWrite_word hp v, .writeW s k v, State.windowRead_writeW hp hk v⟩
  | bufWord k m =>
    obtain ⟨hk, -⟩ := portOf_eq_exact hp (by simp)
    obtain rfl : (⟨.B, k⟩ : Reg) = r := by simpa [hp, Port.reg] using hr
    exact ⟨_, hostWrite_bufWord hp v, .writeBufWord s k m v, State.windowRead_writeBufWord hp hk v⟩
  | limb k i =>
    obtain ⟨hk, -⟩ := portOf_eq_exact hp (by simp)
    obtain rfl : (⟨.F, k⟩ : Reg) = r := by simpa [hp, Port.reg] using hr
    exact ⟨_, hostWrite_limb hp v, .writeLimb s k i v, State.windowRead_writeLimb hp hk v⟩
  | cmd | status | cause | errcmd | ctrl | reserved => simp [hp, Port.reg] at hr

/-- A write of a port that is neither `CMD`, `CTRL` nor a data register's is ignored (R52, R54). -/
theorem hostWrite_of_reg_none (hr : (portOf s.counts off).reg = none) (hcmd : portOf s.counts off ≠ .cmd)
    (hctrl : portOf s.counts off ≠ .ctrl) (v : Word) : hostWrite off v s = .next s := by
  cases hp : portOf s.counts off with
  | cmd => exact absurd hp hcmd
  | ctrl => exact absurd hp hctrl
  | word | bufWord | limb => simp [hp, Port.reg] at hr
  | status | cause | errcmd | reserved => simp only [hostWrite, hp]

end

/-- Settles O24: the port of the offset decides, and only the offsets 0x000 and 0x010 are `CMD` and `CTRL`. -/
theorem hostWriteDoesOneThing : Obligations.HostWriteDoesOneThing := by
  refine fun s off v => ⟨fun h => ?_, fun h => ?_, fun hcmd hctrl => ?_⟩
  · rw [eq_offsetAt h]
    exact hostWrite_cmd v s
  · rw [eq_offsetAt h, hostWrite_ctrl, bits_zero_one]
    cases v.getLsbD 0 <;> rfl
  · cases hr : (portOf s.counts off).reg with
    | none =>
      have hne : portOf s.counts off ≠ .cmd := fun hp => hcmd (portOf_eq_exact hp (by simp)).2
      have hne' : portOf s.counts off ≠ .ctrl := fun hp => hctrl (portOf_eq_exact hp (by simp)).2
      exact ⟨s, hostWrite_of_reg_none hr hne hne' v, fun r h => by simp at h, fun _ => rfl⟩
    | some r =>
      obtain ⟨t, ht, ho, hv⟩ := hostWrite_of_reg hr v
      refine ⟨t, ht, fun r' h => ?_, fun h => by simp at h⟩
      cases h
      exact ⟨ho, hv⟩

/-- Settles O20: an offset in a listed range is not the offset of any register that exists, so its port is reserved. -/
theorem reservedOffsetsAreInert : Obligations.ReservedOffsetsAreInert := by
  intro s off n hn hrange
  have hp : portOf s.counts off = .reserved := by
    by_contra hne
    obtain ⟨hpresent, hoff⟩ := portOf_exact hne
    rw [← hn] at hoff
    cases hp : portOf s.counts off with
    | reserved => exact hne hp
    | cmd | status | cause | errcmd | ctrl | word | bufWord | limb =>
      simp only [hp, Port.present, offsetOfPort] at hpresent hoff
      omega
  exact ⟨by simp only [State.windowRead, hp],
    hostWrite_of_reg_none (by rw [hp]; rfl) (by simp [hp]) (by simp [hp])⟩

/-! ### The three kinds of data register -/

/-- Settles O21: the offset is the port of `W[k]`, which a host write replaces whole. -/
theorem wordRegisterWindow : Obligations.WordRegisterWindow := by
  intro s k v hk
  have hp := portOf_word s.counts k hk
  exact ⟨State.windowRead_word hp, _, hostWrite_word hp v, .writeW s k v, s.readW_writeW v hk,
    State.windowRead_writeW hp hk v⟩

/-- Settles O22: the port word is its four bytes one after another, and a write of it replaces the storage of those
four alone. -/
theorem bufferWindow : Obligations.BufferWindow := by
  intro s k m v hk
  have hp := fun m => portOf_bufWord s.counts k m hk
  simp only [State.readB_byte, fun m => State.windowRead_bufWord (hp m)]
  refine ⟨wordOfBytes_toNat _ _ _ _, ⟨_, hostWrite_bufWord (hp m) v, .writeBufWord s k m v, fun q => ?_,
    fun j hj => ?_⟩, s.leValue_readB k⟩
  · rw [s.readByte_writeBufWord k m v hk, if_pos (byteIndex_div m q), byteIndex_mod, byteOfWord_toNat]
  · have hsame := (s.byteCell_writeBufWord k m v hk j).trans (if_neg hj)
    exact ⟨hsame, State.readByte_of_written hsame⟩

/-- Settles O23: a write of the limb's offset replaces the storage of that limb alone. -/
theorem limbWindow : Obligations.LimbWindow := by
  intro s k i v hk
  have hp := portOf_limb s.counts k i hk
  simp only [State.readF_limb]
  refine ⟨State.windowRead_limb hp, _, hostWrite_limb hp v, .writeLimb s k i v,
    (s.readLimb_writeLimb k i v hk i).trans (if_pos rfl), State.windowRead_writeLimb hp hk v, fun j hj => ?_⟩
  have hsame := (s.limbCell_writeLimb k i v hk j).trans (if_neg hj)
  exact ⟨hsame, State.readLimb_of_written hsame⟩

end Sys2Proof.Machine
end

section
/-! SUPPORT. The decoder, the encoder and the opcode map are three descriptions of one encoding (R81, R82, R88, R91,
R94). -/

namespace Sys2Proof.Machine

open Sys2Proof.Laws.Form (Statement)

/-! ### Decoder and encoder -/

/-- Settles O1: the fields of a packed word are the fields it was packed from. -/
theorem decodeInvertsEncode : Obligations.DecodeInvertsEncode := decode_encode

theorem acceptIf_eq_ok {unused : List (Fin 16)} {i j : Instr} :
    acceptIf unused j = .ok i ↔ unused.all (· == 0) = true ∧ j = i := by
  unfold acceptIf
  split <;> simp [*]

/-- A word that decodes has `zero` and every unused field 0, so packing its fields gives the word back. -/
theorem encode_of_decode {w : Word} {i : Instr} (h : decode w = .ok i) : encode i = w := by
  simp only [decode, bne_iff_ne, ne_eq, ite_not] at h
  split at h
  case isFalse => cases h
  case isTrue hzero =>
    have hpack := pack_fields w hzero
    split at h
    case h_13 => cases h
    all_goals
      rename_i hop
      obtain ⟨hunused, rfl⟩ := acceptIf_eq_ok.1 h
      simp only [List.all_cons, List.all_nil, Bool.and_eq_true, beq_iff_eq, and_true] at hunused
      simpa only [encode, hop, hunused] using hpack

/-- Settles O2: the fields determine the word. -/
theorem encodeInvertsDecode : Obligations.EncodeInvertsDecode := fun _ _ => encode_of_decode

/-- Settles O5: each word is the encoding of its command. -/
theorem exampleWordsDecode : Obligations.ExampleWordsDecode :=
  ⟨decode_encode (.add 2 0 1), decode_encode (.sub 2 0 1), decode_encode (.opp 1 0), decode_encode (.carry 3 2),
    decode_encode (.relax 1 0), decode_encode (.carryMul 2 0 1), decode_encode (.carrySquare 1 0),
    decode_encode (.carryScmulConst 1 0), decode_encode (.cmov 3 1 2 0), decode_encode (.select 2 0 1 0),
    decode_encode (.toBytes 0 2), decode_encode (.fromBytes 0 0)⟩

/-! ### The rows of the opcode map -/

/-- The shape every row of the map has: `match` is `op`, the mask is the one its classes ask for, `rd` and `ra` are
used, and `rc` is used only where `rb` is. -/
theorem opcodeTable_shape : ∀ r ∈ opcodeTable, (r.mask = maskOf r ∧ r.pattern = BitVec.ofNat 32 r.op) ∧
    r.op < 256 ∧ r.rd.isNone = false ∧ r.ra.isNone = false ∧ (r.rb = none → r.rc = none) := by
  decide

theorem opcodeTable_op_injective : ∀ r ∈ opcodeTable, ∀ q ∈ opcodeTable, r.op = q.op → r = q := by
  decide

theorem opcodeTable_mnemonic_injective :
    ∀ r ∈ opcodeTable, ∀ q ∈ opcodeTable, r.mnemonic = q.mnemonic → r = q := by
  decide

/-- The word holds the row's `op`, and 0 in `zero` and in every field the row does not use (R82). -/
structure Fits (r : OpRow) (w : Word) : Prop where
  op : (fields w).op = r.op
  rb : r.rb = none → (fields w).rb = 0
  rc : r.rc = none → (fields w).rc = 0
  zero : (fields w).zero = 0

theorem fits_iff (r : OpRow) (w : Word) : Fits r w ↔ (fields w).op = r.op ∧ (r.rb = none → (fields w).rb = 0) ∧
    (r.rc = none → (fields w).rc = 0) ∧ (fields w).zero = 0 :=
  ⟨fun ⟨hop, hrb, hrc, hzero⟩ => ⟨hop, hrb, hrc, hzero⟩, fun ⟨hop, hrb, hrc, hzero⟩ => ⟨hop, hrb, hrc, hzero⟩⟩

/-- The mask and `match` of a row test its fields, by the three kinds of mask. -/
theorem selects_iff_fits {r : OpRow} (hr : r ∈ opcodeTable) (w : Word) : r.selects w = true ↔ Fits r w := by
  obtain ⟨⟨hmask, hpat⟩, hop, hrd, hra, hrc⟩ := opcodeTable_shape r hr
  rw [OpRow.selects, beq_iff_eq, hmask, hpat, fits_iff]
  cases hb : r.rb with
  | none => simpa [maskOf, hrd, hra, hb, hrc hb] using masked_ab w r.op hop
  | some _ =>
    cases hc : r.rc with
    | none => simpa [maskOf, hrd, hra, hb, hc] using masked_abc w r.op hop
    | some _ => simpa [maskOf, hrd, hra, hb, hc] using masked_abcd w r.op hop

/-- Every command has its row in the map. -/
theorem instr_has_row (i : Instr) : Statement i := by
  cases i with
  | add d a b => exact Laws.Form.add d a b
  | sub d a b => exact Laws.Form.sub d a b
  | opp d a => exact Laws.Form.opp d a
  | carry d a => exact Laws.Form.carry d a
  | relax d a => exact Laws.Form.relax d a
  | carryMul d a b => exact Laws.Form.carryMul d a b
  | carrySquare d a => exact Laws.Form.carrySquare d a
  | carryScmulConst d a => exact Laws.Form.carryScmulConst d a
  | cmov d a b p => exact Laws.Form.cmov d a b p
  | select d a b p => exact Laws.Form.select d a b p
  | toBytes d a => exact Laws.Form.toBytes d a
  | fromBytes d a => exact Laws.Form.fromBytes d a

/-- The row `r` is the command `i`'s, and its classes name `i`'s registers in the word. -/
structure IsRow (r : OpRow) (i : Instr) (w : Word) : Prop where
  mnemonic : i.mnemonic = r.mnemonic
  regs : regsOf i = namedRegs r w

/-- A word that decodes is selected by its command's row. -/
theorem exists_row_of_decode {w : Word} {i : Instr} (h : decode w = .ok i) :
    ∃ r ∈ opcodeTable, r.selects w = true ∧ IsRow r i w := by
  obtain ⟨r, hr, hmn, hop, hzero, hregs, hrb, hrc⟩ := instr_has_row i
  rw [encode_of_decode h] at hop hzero hregs hrb hrc
  exact ⟨r, hr, (selects_iff_fits hr w).2 ⟨hop, hrb, hrc, hzero⟩, hmn.symm, hregs.symm⟩

/-- The decoder has an arm for every row. -/
theorem decode_of_fits (w : Word) : ∀ r ∈ opcodeTable, Fits r w → ∃ i, decode w = .ok i := by
  simp only [opcodeTable, List.forall_mem_cons, List.not_mem_nil, false_imp_iff, forall_true_iff, and_true]
  and_intros <;>
  · rintro ⟨hop, hrb, hrc, hzero⟩
    simp_all [decode, acceptIf]

theorem row_unique {r q : OpRow} (hr : r ∈ opcodeTable) (hq : q ∈ opcodeTable) {w : Word}
    (h : r.selects w = true) (h' : q.selects w = true) : r = q :=
  opcodeTable_op_injective r hr q hq
    (((selects_iff_fits hr w).1 h).op.symm.trans ((selects_iff_fits hq w).1 h').op)

/-- A selected word decodes to its row's command. -/
theorem decode_of_selects {r : OpRow} (hr : r ∈ opcodeTable) {w : Word} (h : r.selects w = true) :
    ∃ i, decode w = .ok i ∧ IsRow r i w := by
  obtain ⟨i, hi⟩ := decode_of_fits w r hr ((selects_iff_fits hr w).1 h)
  obtain ⟨q, hq, hsel, hrow⟩ := exists_row_of_decode hi
  cases row_unique hr hq h hsel
  exact ⟨i, hi, hrow⟩

/-- Settles O3: a row's mask tests exactly what the decoder's arm tests, and `op` tells the rows apart. -/
theorem tableRowsSelectTheDecodedWords : Obligations.TableRowsSelectTheDecodedWords := by
  refine ⟨fun r hr w => ⟨fun h => ?_, fun ⟨i, hi, hmn, _⟩ => ?_⟩, fun r hr q hq w => row_unique hr hq,
    fun r hr => (opcodeTable_shape r hr).1⟩
  · obtain ⟨i, hi, hmn, hregs⟩ := decode_of_selects hr h
    exact ⟨i, hi, hmn, hregs⟩
  · obtain ⟨q, hq, hsel, hmn', -⟩ := exists_row_of_decode hi
    cases opcodeTable_mnemonic_injective r hr q hq (hmn.symm.trans hmn')
    exact hsel

/-! ### Illegal words -/

/-- The words of no row are the words the decoder rejects. -/
theorem no_row_iff_decode_error (w : Word) :
    (∀ r ∈ opcodeTable, r.selects w = false) ↔ ∃ e, decode w = .error e := by
  cases hd : decode w with
  | error e =>
    refine iff_of_true (fun r hr => ?_) ⟨e, rfl⟩
    by_contra hsel
    obtain ⟨i, hi, -⟩ := decode_of_selects hr (by simpa using hsel)
    simp [hd] at hi
  | ok i =>
    obtain ⟨r, hr, hsel, -⟩ := exists_row_of_decode hd
    refine iff_of_false (fun h => ?_) (by simp)
    simp [h r hr] at hsel

/-- R89 step 2: the word of no row, issued to an engine that has not faulted. -/
theorem hostWrite_cmd_of_no_row {s : State} {w : Word} (herr : s.err = false)
    (h : ∀ r ∈ opcodeTable, r.selects w = false) :
    hostWrite (offsetAt 0x000) w s = .next (s.raiseFault .illegalCommand w) := by
  obtain ⟨e, he⟩ := (no_row_iff_decode_error w).1 h
  simp [hostWrite_cmd, issueCommand, herr, he]

/-- R91: the words of no row, by their fields. -/
theorem no_row_iff_fields (w : Word) : (∀ r ∈ opcodeTable, r.selects w = false) ↔
    ((fields w).zero ≠ 0 ∨ (fields w).op ∉ opcodeTable.map (·.op) ∨
      ∃ r ∈ opcodeTable, r.op = (fields w).op ∧
        ((r.rb = none ∧ (fields w).rb ≠ 0) ∨ (r.rc = none ∧ (fields w).rc ≠ 0))) := by
  constructor
  · intro h
    by_contra hno
    push Not at hno
    obtain ⟨hzero, hop, hfields⟩ := hno
    obtain ⟨r, hr, hrop⟩ := List.mem_map.1 hop
    obtain ⟨hrb, hrc⟩ := hfields r hr hrop
    simpa [h r hr] using (selects_iff_fits hr w).2 ⟨hrop.symm, hrb, hrc, hzero⟩
  · intro h r hr
    rw [← Bool.not_eq_true, selects_iff_fits hr]
    rintro ⟨hop, hrb, hrc, hzero⟩
    rcases h with h | h | ⟨q, hq, hqop, h⟩
    · exact h hzero
    · exact h (List.mem_map.2 ⟨r, hr, hop.symm⟩)
    · cases opcodeTable_op_injective r hr q hq (hop.symm.trans hqop.symm)
      rcases h with ⟨hnone, h⟩ | ⟨hnone, h⟩
      · exact h (hrb hnone)
      · exact h (hrc hnone)

/-- Settles O4: the words of no row are the words the decoder rejects, whatever its reason. -/
theorem illegalWordsFault : Obligations.IllegalWordsFault := by
  refine ⟨no_row_iff_fields, fun s w => hostWrite_cmd_of_no_row, rfl, fun w => ?_, by decide⟩
  rw [no_row_iff_decode_error]
  cases decode w with
  | error e => exact .inl ⟨e, rfl⟩
  | ok i => exact .inr ⟨i, rfl⟩

end Sys2Proof.Machine
end

section
/-! SUPPORT. Issuing a command (R89): what each of its checks decides, said of the registers the command names, and
what every command leaves unchanged. -/

namespace Sys2Proof.Machine

/-! ### The checks on the form, over the registers of the command -/

theorem inRange_iff (c : Counts) (i : Instr) :
    i.inRange c = true ↔ ∀ q ∈ regsOf i, q.idx.val < countOf c q.file := by
  rw [← Bool.not_eq_false', ← any_outOfRange]
  simp

theorem noAlias_iff (i : Instr) : i.noAlias = true ↔ ∀ q ∈ sourcesOf i, q ≠ destOf i := by
  rw [← Bool.not_eq_false', ← any_aliased]
  simp

/-! ### The cases of `exec` -/

section

variable {s : State} {i : Instr}

/-- R89 step 3. -/
theorem exec_of_not_inRange (herr : s.err = false) (hr : i.inRange s.counts = false) :
    exec i s = .next (s.raiseFault .regRange (encode i)) := by
  obtain ⟨e, he, -⟩ := exec_shape i s
  simp [he, State.perform, herr, formFault_of_not_inRange hr]

/-- R89 step 4. -/
theorem exec_of_not_noAlias (herr : s.err = false) (hr : i.inRange s.counts = true) (ha : i.noAlias = false) :
    exec i s = .next (s.raiseFault .aliased (encode i)) := by
  obtain ⟨e, he, -⟩ := exec_shape i s
  simp [he, State.perform, herr, formFault_of_not_noAlias hr ha]

/-- R89 step 5. -/
theorem exec_of_wf (herr : s.err = false) (hwf : i.wf s.counts = true) :
    ∃ t, exec i s = .next t ∧ OnlyChanges (destOf i) s t := by
  obtain ⟨e, he, hw⟩ := exec_shape i s
  exact ⟨_, by rw [he, State.perform_wf herr hwf], (hw s).onlyChanges.retire⟩

end

/-- Settles O51: the cases of the prologue, and the frame of the one write of a command that retires. -/
theorem commandFrame : Obligations.CommandFrame := by
  intro i s t hexec
  rcases exec_cases i s with ⟨herr, e⟩ | ⟨herr, -, e⟩ | ⟨herr, -, -, e⟩ | ⟨herr, -, u, hu, e⟩ <;>
    rw [e] at hexec <;> cases hexec
  · exact .inl ⟨herr, rfl⟩
  · exact .inr (.inl ⟨herr, rfl, rfl, rfl, rfl, rfl, rfl, rfl, rfl⟩)
  · exact .inr (.inl ⟨herr, rfl, rfl, rfl, rfl, rfl, rfl, rfl, rfl⟩)
  · have ho := hu.onlyChanges.retire
    exact .inr (.inr ⟨herr, ho.control.err.trans herr, ho⟩)

/-! ### Writing CMD -/

/-- R89 steps 3 to 5 for a word of the row `r`: the checks on the registers the row names in the word are the checks
on those of its command. -/
theorem hostWrite_cmd_of_row {s : State} {w : Word} {r : OpRow} (herr : s.err = false) (hr : r ∈ opcodeTable)
    (hsel : r.selects w = true) :
    ((∃ q ∈ namedRegs r w, countOf s.counts q.file ≤ q.idx.val) →
      hostWrite (offsetAt 0x000) w s = .next (s.raiseFault .regRange w)) ∧
    ((∀ q ∈ namedRegs r w, q.idx.val < countOf s.counts q.file) →
      ((∃ q ∈ (namedRegs r w).tail, (namedRegs r w).head? = some q) →
        hostWrite (offsetAt 0x000) w s = .next (s.raiseFault .aliased w)) ∧
      ((∀ q ∈ (namedRegs r w).tail, (namedRegs r w).head? ≠ some q) →
        ∃ i t, decode w = .ok i ∧ exec i s = .next t ∧ hostWrite (offsetAt 0x000) w s = .next t ∧
          OnlyChanges (destOf i) s t)) := by
  obtain ⟨i, hi, -, hregs⟩ := decode_of_selects hr hsel
  have hissue : hostWrite (offsetAt 0x000) w s = exec i s :=
    (hostWrite_cmd w s).trans (issueCommand_of_decode hi s)
  have hword : encode i = w := encode_of_decode hi
  rw [← hregs, hissue, ← inRange_iff, ← hword]
  refine ⟨fun ⟨q, hq, hle⟩ => exec_of_not_inRange herr ?_, fun hrange => ⟨fun ⟨q, hq, hd⟩ => ?_, fun hne => ?_⟩⟩
  · rw [← Bool.not_eq_true, inRange_iff]
    exact fun h => absurd (h q hq) (by omega)
  · refine exec_of_not_noAlias herr hrange ?_
    rw [← Bool.not_eq_true, noAlias_iff]
    exact fun h => h q hq (Option.some.inj hd).symm
  · have ha : i.noAlias = true := (noAlias_iff i).2 fun q hq hd => hne q hq (congrArg some hd.symm)
    obtain ⟨t, ht, ho⟩ := exec_of_wf herr (by rw [Instr.wf, hrange, ha]; rfl)
    exact ⟨i, t, decode_encode i, ht, ht, ho⟩

/-- Settles O7: a write of `CMD` issues the word; a word of no row is illegal, and a word of a row is its command's
(R89 steps 1 to 5). -/
theorem issueRunsTheFiveSteps : Obligations.IssueRunsTheFiveSteps := by
  refine ⟨⟨rfl, rfl, rfl⟩, fun s w => ⟨fun herr => ?_, fun herr =>
    ⟨hostWrite_cmd_of_no_row herr, fun r hr hsel => hostWrite_cmd_of_row herr hr hsel⟩⟩⟩
  simp [hostWrite_cmd, issueCommand, herr]

end Sys2Proof.Machine
end

section
/-! SUPPORT. The pseudo-instructions that load a register (R95): a run of host writes, each of which stores one part of
the register. -/

namespace Sys2Proof.Machine

/-! ### The frame of several operations -/

theorem OnlyChanges.refl (r : Reg) (s : State) : OnlyChanges r s s :=
  ⟨SameControl.refl s, rfl, fun _ _ => rfl, fun _ _ => rfl, fun _ _ => rfl⟩

theorem OnlyChanges.trans {r : Reg} {s t u : State} (h : OnlyChanges r s t) (h' : OnlyChanges r t u) :
    OnlyChanges r s u where
  control :=
    { err := h'.control.err.trans h.control.err
      cause := h'.control.cause.trans h.control.cause
      errcmd := h'.control.errcmd.trans h.control.errcmd
      ops := h'.control.ops.trans h.control.ops
      pc := h'.control.pc.trans h.control.pc
      reads := h'.control.reads.trans h.control.reads }
  counts := h'.counts.trans h.counts
  f := fun k hk => (h'.f k hk).trans (h.f k hk)
  b := fun k hk => (h'.b k hk).trans (h.b k hk)
  w := fun k hk => (h'.w k hk).trans (h.w k hk)

/-- The host's list and position have no part in a frame. -/
theorem OnlyChanges.withHost {r : Reg} {s t : State} (h : OnlyChanges r s t) (ops : List HostOp) (pc : Nat) :
    OnlyChanges r { s with ops := ops, pc := pc } { t with ops := ops, pc := pc } where
  control := ⟨h.control.err, h.control.cause, h.control.errcmd, rfl, rfl, h.control.reads⟩
  counts := h.counts
  f := h.f
  b := h.b
  w := h.w

/-! ### A run of host operations that store the parts of one register -/

theorem run_succ {s t : State} {op : HostOp} {rest : List HostOp} (hops : s.ops = op :: rest)
    (h : performOp op (s.take rest) = .next t) (n : Nat) :
    Sys2Proof.core.run (n + 1) s = Sys2Proof.core.run n t := by
  have hstep : Sys2Proof.core.step s = .next t := (step_cons hops).trans h
  simp only [Host.Core.run, hstep]

/-- From any state with the counts `c` the operation of each part completes, stores that part (`Holds`), takes away no
part that is already stored, and changes the register `r` alone. -/
def StoresParts {α : Type} (c : Counts) (r : Reg) (op : α → HostOp) (Holds : α → State → Prop) : Prop :=
  ∀ (a : α) (s : State) (rest : List HostOp), s.counts = c →
    ∃ t, performOp (op a) (s.take rest) = .next t ∧ OnlyChanges r (s.take rest) t ∧ Holds a t ∧
      ∀ b, Holds b s → Holds b t

/-- After the operations of the listed parts all of them are stored, and the host goes on with the rest of its list. -/
theorem run_storesParts {α : Type} {c : Counts} {r : Reg} {op : α → HostOp} {Holds : α → State → Prop}
    (hop : StoresParts c r op Holds) (rest : List HostOp) (parts : List α) (s : State) (hc : s.counts = c)
    (hops : s.ops = parts.map op ++ rest) :
    ∃ t, Sys2Proof.core.run parts.length s = .next t ∧
      OnlyChanges r { s with ops := rest, pc := s.pc + parts.length } t ∧
      (∀ a ∈ parts, Holds a t) ∧ ∀ b, Holds b s → Holds b t := by
  induction parts generalizing s with
  | nil =>
    obtain rfl : s.ops = rest := hops
    exact ⟨s, rfl, .refl r s, by simp, fun _ => id⟩
  | cons a parts ih =>
    obtain ⟨u, hu, hframe, ha, hkeep⟩ := hop a s (parts.map op ++ rest) hc
    obtain ⟨t, ht, hframe', hall, hkeep'⟩ := ih u (hframe.counts.trans hc) hframe.control.ops
    have hpc : u.pc + parts.length = s.pc + (parts.length + 1) := by
      have : u.pc = s.pc + 1 := hframe.control.pc
      omega
    rw [hpc] at hframe'
    exact ⟨t, (run_succ hops hu _).trans ht, (hframe.withHost _ _).trans hframe',
      List.forall_mem_cons.2 ⟨hkeep' a ha, hall⟩, fun b hb => hkeep' b (hkeep b hb)⟩

/-! ### `wrf` -/

/-- Limb `i` of `F[k]` is stored as limb `i` of `l`. -/
def LimbStored (k : FIdx) (l : Limbs) (i : Fin 10) (t : State) : Prop := t.limbCell k i = Slot.full l[i]

theorem wrf_storesParts {c : Counts} {k : FIdx} (hk : k.val < c.nf) (l : Limbs) :
    StoresParts c ⟨.F, k⟩ (fun i : Fin 10 => .write (offsetAt (0x400 + 64 * k.val + 4 * i.val)) l[i])
      (LimbStored k l) := by
  rintro i s rest rfl
  have hcell := (s.take rest).limbCell_writeLimb k i l[i] hk
  refine ⟨_, hostWrite_limb (s := s.take rest) (portOf_limb _ k i hk) _, .writeLimb _ k i _,
    (hcell i).trans (if_pos rfl), fun j hj => (hcell j).trans ?_⟩
  split
  next hji => rw [hji]
  next => exact hj

/-- A register all of whose limbs are stored reads as them and is written whole. -/
theorem readF_of_limbStored {t : State} {k : FIdx} {l : Limbs} (h : ∀ i, LimbStored k l i t) :
    t.readF k = l ∧ t.written ⟨.F, k⟩ = true := by
  simp only [LimbStored] at h
  refine ⟨?_, (t.written_F k).2 fun i => by rw [h, Slot.full_written]⟩
  ext i hi
  simp [State.readLimb, h]

/-! ### `wrb` -/

/-- The port word that `wrb` writes for word `m` of the buffer. -/
def bufferWord (h : Buffer) (m : Fin 8) : Word :=
  wordOfBytes h[byteIndex m 0] h[byteIndex m 1] h[byteIndex m 2] h[byteIndex m 3]

theorem byteOfWord_bufferWord (h : Buffer) (m : Fin 8) (q : Fin 4) :
    byteOfWord (bufferWord h m) q.val = h[byteIndex m q] := by
  apply BitVec.eq_of_toNat_eq
  rw [byteOfWord_toNat]
  exact bits_wordOfBytes (fun q => h[byteIndex m q]) q

theorem exists_byteIndex (j : Fin 32) : ∃ m q, byteIndex m q = j :=
  ⟨⟨j.val / 4, by omega⟩, ⟨j.val % 4, by omega⟩, Fin.ext (Nat.div_add_mod j.val 4)⟩

/-- The four bytes of word `m` of `B[k]` are stored as those of `h`. -/
def WordStored (k : BIdx) (h : Buffer) (m : Fin 8) (t : State) : Prop :=
  ∀ q, t.byteCell k (byteIndex m q) = Slot.full h[byteIndex m q]

theorem wrb_storesParts {c : Counts} {k : BIdx} (hk : k.val < c.nb) (h : Buffer) :
    StoresParts c ⟨.B, k⟩ (fun m : Fin 8 => .write (offsetAt (0x100 + 32 * k.val + 4 * m.val)) (bufferWord h m))
      (WordStored k h) := by
  rintro m s rest rfl
  have hcell := fun n q => (s.take rest).byteCell_writeBufWord k m (bufferWord h m) hk (byteIndex n q)
  simp only [byteIndex_div, byteIndex_mod, byteOfWord_bufferWord] at hcell
  refine ⟨_, hostWrite_bufWord (s := s.take rest) (portOf_bufWord _ k m hk) _, .writeBufWord _ k m _,
    fun q => (hcell m q).trans (if_pos rfl), fun n hn q => (hcell n q).trans ?_⟩
  split
  next hnm => rw [Fin.ext hnm]
  next => exact hn q

/-- A buffer all of whose bytes are stored reads as them and is written whole. -/
theorem readB_of_wordStored {t : State} {k : BIdx} {h : Buffer} (hwords : ∀ m, WordStored k h m t) :
    t.readB k = h ∧ t.written ⟨.B, k⟩ = true := by
  have hcells : ∀ j : Fin 32, t.byteCell k j = Slot.full h[j] := by
    intro j
    obtain ⟨m, q, rfl⟩ := exists_byteIndex j
    exact hwords m q
  refine ⟨?_, (t.written_B k).2 fun j => by rw [hcells, Slot.full_written]⟩
  ext j hj
  simp [State.readByte, hcells]

/-- Settles O26: the writes store every limb (every group of four bytes) of the register, and nothing else. -/
theorem pseudoInstructionsLoadARegister : Obligations.PseudoInstructionsLoadARegister := by
  refine fun s rest k => ⟨fun l hk hops => ?_, fun h hk hops => ?_⟩
  · obtain ⟨t, hrun, hframe, hstored, -⟩ :=
      run_storesParts (wrf_storesParts hk l) rest (List.finRange 10) s rfl hops
    obtain ⟨hread, hwritten⟩ := readF_of_limbStored fun i => hstored i (List.mem_finRange i)
    exact ⟨t, hrun, hread, hwritten, hframe⟩
  · obtain ⟨t, hrun, hframe, hstored, -⟩ :=
      run_storesParts (wrb_storesParts hk h) rest (List.finRange 8) s rfl hops
    obtain ⟨hread, hwritten⟩ := readB_of_wordStored fun m => hstored m (List.mem_finRange m)
    exact ⟨t, hrun, hread, hwritten, hframe⟩

end Sys2Proof.Machine
end

section
/-! SUPPORT. What the rule of a command is made of, whatever the command: the words that decode to it (R81, R88), the
checks on its form (R89 steps 3 and 4), and what it leaves in its destination when it retires (R89 step 5). -/

namespace Sys2Proof.Machine

/-! ### The words that decode to a command, by match and mask -/

theorem decode_eq_ok_iff (w : Word) (i : Instr) : decode w = .ok i ↔ encode i = w :=
  ⟨encode_of_decode, fun h => h ▸ decode_encode i⟩

/-- A row with two sources: `match`, `mask` and the three used fields determine the word. -/
theorem pack_abc_eq_iff {op : Nat} (hop : op < 256) (d a b : Fin 16) (w : Word) :
    pack op d a b 0 = w ↔
      w &&& 0xFFF000FF#32 = BitVec.ofNat 32 op ∧ (fields w).rd = d ∧ (fields w).ra = a ∧ (fields w).rb = b := by
  rw [masked_abc w op hop]
  constructor
  · rintro rfl
    simp [fields_pack _ _ _ _ _ hop]
  · rintro ⟨⟨hw, hrc, hzero⟩, rfl, rfl, rfl⟩
    rw [← hw, ← hrc, pack_fields w hzero]

/-- A row with one source: `match`, `mask` and the two used fields determine the word. -/
theorem pack_ab_eq_iff {op : Nat} (hop : op < 256) (d a : Fin 16) (w : Word) :
    pack op d a 0 0 = w ↔
      w &&& 0xFFFF00FF#32 = BitVec.ofNat 32 op ∧ (fields w).rd = d ∧ (fields w).ra = a := by
  rw [masked_ab w op hop]
  constructor
  · rintro rfl
    simp [fields_pack _ _ _ _ _ hop]
  · rintro ⟨⟨hw, hrb, hrc, hzero⟩, rfl, rfl⟩
    rw [← hw]
    simpa only [hrb, hrc] using pack_fields w hzero

/-! ### Form and retirement -/

section

variable {s : State} {i : Instr}

theorem formChecked (herr : s.err = false) (i : Instr) : FormChecked i s :=
  ⟨exec_of_not_inRange herr, exec_of_not_noAlias herr⟩

theorem Retires.mono {p q : State → Prop} (h : Retires i s p) (hpq : ∀ t, p t → q t) : Retires i s q := by
  obtain ⟨t, hexec, hframe, hwritten, hp⟩ := h
  exact ⟨t, hexec, hframe, hwritten, hpq t hp⟩

/-- A command whose effect is one write of `F[d]` leaves there the value it computes from the state it starts in. -/
theorem retires_writeF {d : FIdx} {x : State → Limbs} (hdest : destOf i = ⟨.F, d⟩)
    (hexec : exec i s = command i (fun u => u.writeF d (x u)) s) (herr : s.err = false)
    (hwf : i.wf s.counts = true) : Retires i s fun t => t.readF d = x s := by
  have hd : d.val < s.f.length := by simpa [hdest, countOf, State.counts] using destOf_lt_of_wf hwf
  rw [Retires, hdest]
  exact ⟨(s.writeF d (x s)).retire, by rw [hexec, command, State.perform_wf herr hwf],
    (OnlyChanges.writeF s d (x s)).retire, s.written_writeF (x s) hd, s.readF_retire_writeF (x s) hd⟩

end

end Sys2Proof.Machine
end

section
/-! SUPPORT. `add`, `sub` and `opp` (R110 to R115): what each leaves in its destination, and, with `carry` after it, the
ring operation of GF(p) (R114). -/

namespace Sys2Proof.Machine

/-! ### The bias and the bounds -/

theorem tightMax_le_bias : ∀ i, tightMax i ≤ bias i := by decide

theorem bias_lt : ∀ i, bias i < 2 * tightMax i := by decide

theorem eval_bias : eval bias = 2 * P := by decide

/-- R26, R115: a loose limb fits its 32 bits. -/
theorem Loose.lt_two_pow {z : Digits} (h : Loose z) (i : Fin 10) : z i < 2 ^ 32 :=
  (h i).trans_lt ((by decide : ∀ i, looseMax i < 2 ^ 32) i)

theorem loose_of_le {z : Digits} (h : ∀ i, z i ≤ 2 * tightMax i) : Loose z := fun i =>
  (h i).trans (Nat.mul_le_mul_right _ (by decide))

/-! ### The limbs of a sum, a difference and a negation -/

/-- The value of a limb-wise sum is the sum of the values. -/
theorem eval_addLimbs (x y : Digits) : eval (addLimbs x y) = eval x + eval y := by
  simp only [eval_eq, addLimbs]
  ring

section

variable {x y : Digits}

/-- R111. -/
theorem addLimbs_le (hx : Tight x) (hy : Tight y) (i : Fin 10) : addLimbs x y i ≤ 2 * tightMax i := by
  have := hx i
  have := hy i
  simp only [addLimbs]
  omega

theorem addLimbs_loose (hx : Tight x) (hy : Tight y) : Loose (addLimbs x y) := loose_of_le (addLimbs_le hx hy)

/-- R112: with the bias on top of `x`, a tight `y` can be taken away limb by limb. -/
theorem subLimbs_add (x : Digits) (hy : Tight y) (i : Fin 10) : subLimbs x y i + y i = bias i + x i := by
  have := hy i
  have := tightMax_le_bias i
  simp only [subLimbs]
  omega

theorem subLimbs_bounds (hx : Tight x) (hy : Tight y) (i : Fin 10) :
    bias i - tightMax i ≤ subLimbs x y i ∧ subLimbs x y i ≤ bias i + tightMax i := by
  have := hx i
  have := hy i
  simp only [subLimbs]
  omega

/-- R112: bias plus operand is below twice the tight bound plus the tight bound. -/
theorem subLimbs_loose (hx : Tight x) (hy : Tight y) : Loose (subLimbs x y) := fun i => by
  obtain ⟨-, hle⟩ := subLimbs_bounds hx hy i
  have := bias_lt i
  simp only [looseMax, looseFactor]
  omega

theorem eval_subLimbs (x : Digits) (hy : Tight y) : eval (subLimbs x y) + eval y = 2 * P + eval x := by
  rw [← eval_bias, ← eval_addLimbs, ← eval_addLimbs]
  exact congrArg eval (funext (subLimbs_add x hy))

/-- R113: a tight operand can be taken away from the bias limb by limb. -/
theorem oppLimbs_add (hx : Tight x) (i : Fin 10) : oppLimbs x i + x i = bias i :=
  Nat.sub_add_cancel ((hx i).trans (tightMax_le_bias i))

theorem oppLimbs_le (x : Digits) (i : Fin 10) : oppLimbs x i ≤ bias i := Nat.sub_le _ _

theorem oppLimbs_loose (x : Digits) : Loose (oppLimbs x) :=
  loose_of_le fun i => (oppLimbs_le x i).trans (bias_lt i).le

theorem eval_oppLimbs (hx : Tight x) : eval (oppLimbs x) + eval x = 2 * P := by
  rw [← eval_bias, ← eval_addLimbs]
  exact congrArg eval (funext (oppLimbs_add hx))

end

/-! ### The carry chain on a loose vector -/

/-- R123: the chain takes a multiple of p away. -/
theorem eval_chain_modEq (z : Digits) : eval (chain z) ≡ eval z [MOD P] := by
  rw [← chain_value z]
  exact (Nat.add_mul_mod_self_right _ _ P).symm

/-- R123: a loose vector overflows limb 9 by at most 3. -/
theorem Loose.passSum_div_le {z : Digits} (h : Loose z) : passSum z 9 / 2 ^ 25 ≤ 3 := by
  have hb := limb_bounds h
  simp only [looseMax, looseFactor, tightMax, wd_even, wd_odd] at hb
  have hp := passSum_rec z
  omega

theorem Loose.chain_tight {z : Digits} (h : Loose z) : Tight (chain z) := by
  have h9 := h.passSum_div_le
  obtain ⟨hmask, h2⟩ := chain_bounds z (by omega)
  intro i
  by_cases hi : i = 2
  · simpa only [hi, tightMax, wd_even] using h2
  · exact (hmask i hi).trans (Nat.sub_le _ _)

/-! ### What the commands leave in their destination -/

section

variable {s : State} {d a b : FIdx}

theorem add_retires (herr : s.err = false) (hwf : Instr.wf s.counts (.add d a b) = true) :
    Retires (.add d a b) s fun t => Tight (digits (s.readF a)) → Tight (digits (s.readF b)) →
      digits (t.readF d) = addLimbs (digits (s.readF a)) (digits (s.readF b)) :=
  (retires_writeF rfl rfl herr hwf).mono fun t ht ha hb => by
    rw [ht, if_pos ⟨ha, hb⟩, digits_ofDigits (addLimbs_loose ha hb).lt_two_pow]

theorem sub_retires (herr : s.err = false) (hwf : Instr.wf s.counts (.sub d a b) = true) :
    Retires (.sub d a b) s fun t => Tight (digits (s.readF a)) → Tight (digits (s.readF b)) →
      digits (t.readF d) = subLimbs (digits (s.readF a)) (digits (s.readF b)) :=
  (retires_writeF rfl rfl herr hwf).mono fun t ht ha hb => by
    rw [ht, if_pos ⟨ha, hb⟩, digits_ofDigits (subLimbs_loose ha hb).lt_two_pow]

theorem opp_retires (herr : s.err = false) (hwf : Instr.wf s.counts (.opp d a) = true) :
    Retires (.opp d a) s fun t => Tight (digits (s.readF a)) →
      digits (t.readF d) = oppLimbs (digits (s.readF a)) :=
  (retires_writeF rfl rfl herr hwf).mono fun t ht ha => by
    rw [ht, if_pos ha, digits_ofDigits (oppLimbs_loose _).lt_two_pow]

theorem carry_retires (herr : s.err = false) (hwf : Instr.wf s.counts (.carry d a) = true) :
    Retires (.carry d a) s fun t => Loose (digits (s.readF a)) →
      digits (t.readF d) = chain (digits (s.readF a)) :=
  (retires_writeF rfl rfl herr hwf).mono fun t ht ha => by
    rw [ht, if_pos ha, digits_ofDigits ha.chain_tight.loose.lt_two_pow]

end

/-! ### The rules -/

/-- Settles O27: limb-wise sums of tight limbs are loose, so they are stored exactly. -/
theorem addRule : Obligations.AddRule := by
  refine ⟨fun w d a b => (decode_eq_ok_iff w _).trans (pack_abc_eq_iff (by decide) d a b w),
    fun s d a b herr => ⟨formChecked herr _, fun hwf => (add_retires herr hwf).mono fun t ht ha hb => ?_⟩⟩
  rw [ht ha hb]
  exact ⟨fun _ => rfl, addLimbs_le ha hb, addLimbs_loose ha hb, eval_addLimbs _ _⟩

/-- Settles O28: the bias makes every limb's difference a natural number, and adds 2P to the value. -/
theorem subRule : Obligations.SubRule := by
  refine ⟨fun w d a b => (decode_eq_ok_iff w _).trans (pack_abc_eq_iff (by decide) d a b w),
    fun s d a b herr => ⟨formChecked herr _, fun hwf => (sub_retires herr hwf).mono fun t ht ha hb => ?_⟩⟩
  rw [ht ha hb]
  exact ⟨subLimbs_add _ hb, subLimbs_bounds ha hb, subLimbs_loose ha hb, eval_subLimbs _ hb⟩

/-- Settles O29: the bias exceeds every tight limb, and has the value 2P. -/
theorem oppRule : Obligations.OppRule := by
  refine ⟨fun w d a => (decode_eq_ok_iff w _).trans (pack_ab_eq_iff (by decide) d a w),
    fun s d a herr => ⟨formChecked herr _, fun hwf => (opp_retires herr hwf).mono fun t ht ha => ?_⟩⟩
  rw [ht ha]
  exact ⟨oppLimbs_add ha, fun i => ⟨oppLimbs_le _ i, bias_lt i⟩, oppLimbs_loose _, eval_oppLimbs ha⟩

/-! ### A linear command, then `carry` -/

/-- `carry` after a command that leaves a loose vector completes, with a tight vector of the same value mod p. -/
theorem Retires.then_carry {i : Instr} {s : State} {d m : FIdx} {z : Digits}
    (h : Retires i s fun t => digits (t.readF m) = z) (hz : Loose z) (herr : s.err = false)
    (hwf : Instr.wf s.counts (.carry d m) = true) :
    ∃ t u, exec i s = .next t ∧ exec (.carry d m) t = .next u ∧ Tight (digits (u.readF d)) ∧
      eval (digits (u.readF d)) ≡ eval z [MOD P] := by
  obtain ⟨t, hexec, hframe, -, rfl⟩ := h
  obtain ⟨u, hcarry, -, -, hu⟩ := carry_retires (hframe.control.err.trans herr) (by rwa [hframe.counts])
  refine ⟨t, u, hexec, hcarry, ?_⟩
  rw [hu hz]
  exact ⟨hz.chain_tight, eval_chain_modEq _⟩

/-- Settles O31: the carried value is congruent to that of the loose vector, which is the operation's up to 2P. -/
theorem linearThenCarryIsTheRingOperation : Obligations.LinearThenCarryIsTheRingOperation := by
  refine fun s d m a b herr hcarry ha hb => ⟨fun hwf => ?_, fun hwf => ?_, fun hwf => ?_⟩
  · obtain ⟨t, u, ht, hu, htight, hmod⟩ := Retires.then_carry
      ((add_retires herr hwf).mono fun t h => h ha hb) (addLimbs_loose ha hb) herr hcarry
    rw [eval_addLimbs] at hmod
    exact ⟨t, u, ht, hu, htight, hmod⟩
  · obtain ⟨t, u, ht, hu, htight, hmod⟩ := Retires.then_carry
      ((sub_retires herr hwf).mono fun t h => h ha hb) (subLimbs_loose ha hb) herr hcarry
    have hsum := hmod.add_right (eval (digits (s.readF b)))
    rw [eval_subLimbs _ hb] at hsum
    exact ⟨t, u, ht, hu, htight, Eq.trans hsum (Nat.mul_add_mod_self_right 2 P _)⟩
  · obtain ⟨t, u, ht, hu, htight, hmod⟩ := Retires.then_carry
      ((opp_retires herr hwf).mono fun t h => h ha) (oppLimbs_loose _) herr hcarry
    have hsum := hmod.add_right (eval (digits (s.readF a)))
    rw [eval_oppLimbs ha] at hsum
    exact ⟨t, u, ht, hu, htight, Eq.trans hsum (Nat.mul_mod_left 2 P)⟩

end Sys2Proof.Machine
end

section
/-! SUPPORT. The carry chain's sums, overflows and limbs (R120, R123), and the rules of `carry` (R121) and `relax`
(R122). -/

namespace Sys2Proof.Machine

/-! ### Pass 1 -/

theorem passSum_succ (z : Digits) (i : Fin 9) :
    passSum z i.succ.val = z i.succ + (passSum z i.castSucc.val >>> wd i.castSucc) := by
  have hs : Fin.ofNat 10 (i.val + 1) = i.succ := Fin.ext (Nat.mod_eq_of_lt i.succ.isLt)
  have hc : Fin.ofNat 10 i.val = i.castSucc := Fin.ext (Nat.mod_eq_of_lt i.castSucc.isLt)
  rw [Fin.val_succ, passSum, hs, hc, Fin.val_castSucc]

theorem shiftRight_mono {m n : Nat} (h : m ≤ n) (k : Nat) : m >>> k ≤ n >>> k := by
  simpa only [Nat.shiftRight_eq_div_pow] using Nat.div_le_div_right h

section

variable {z b : Digits} {c : Nat}

/-- Where a limb at its bound `b` and an overflow of at most `c` from below overflow by at most `c` again, every sum of
pass 1 is within the bound plus `c`. -/
theorem passSum_le (hz : ∀ i, z i ≤ b i) (hc : ∀ i, (b i + c) >>> wd i ≤ c) (i : Fin 10) :
    passSum z i.val ≤ b i + c := by
  induction i using Fin.induction with
  | zero => exact (hz 0).trans (Nat.le_add_right _ _)
  | succ i ih =>
    rw [passSum_succ]
    exact Nat.add_le_add (hz i.succ) ((shiftRight_mono ih _).trans (hc i.castSucc))

theorem passSum_overflow_le (hz : ∀ i, z i ≤ b i) (hc : ∀ i, (b i + c) >>> wd i ≤ c) (i : Fin 10) :
    passSum z i.val >>> wd i ≤ c :=
  (shiftRight_mono (passSum_le hz hc i) _).trans (hc i)

end

/-! ### The fold and the repropagation -/

/-- R120 `c9`: the overflow of limb 9. -/
def topOverflow (z : Digits) : Nat := passSum z 9 >>> 25

/-- R120 `u0`: limb 0 with the folded overflow of limb 9. -/
def foldedLimb0 (z : Digits) : Nat := (passSum z 0 &&& mask 0) + 19 * topOverflow z

/-- R120 `u1`: limb 1 with the second overflow of limb 0. -/
def foldedLimb1 (z : Digits) : Nat := (passSum z 1 &&& mask 1) + (foldedLimb0 z >>> 26)

section

variable (z : Digits)

theorem foldedLimb0_le : foldedLimb0 z ≤ mask 0 + 19 * topOverflow z := Nat.add_le_add_right Nat.and_le_right _

theorem foldedLimb1_le : foldedLimb1 z ≤ mask 1 + (foldedLimb0 z >>> 26) := Nat.add_le_add_right Nat.and_le_right _

theorem eval_chain : eval (chain z) + topOverflow z * (2 ^ 255 - 19) = eval z := by
  rw [topOverflow, Nat.shiftRight_eq_div_pow]
  exact chain_value z

/-- R123: every limb of the result but limb 2 is masked. -/
theorem chain_le_mask {i : Fin 10} (hi : i ≠ 2) : chain z i ≤ mask i := by
  simp only [chain, if_neg hi]
  split_ifs with h0 h1
  · rw [h0]
    exact Nat.and_le_right
  · rw [h1]
    exact Nat.and_le_right
  · exact Nat.and_le_right

/-- R125: limb 2 takes the last overflow of limb 1 unmasked. -/
theorem chain_two_le : chain z 2 ≤ mask 2 + (foldedLimb1 z >>> 25) := Nat.add_le_add_right Nat.and_le_right _

end

section

variable {z : Digits}

theorem fold_lt_of_topOverflow_lt (h : topOverflow z < 2 ^ 45) :
    19 * topOverflow z + mask 0 < 2 ^ 26 * (2 ^ 25 + 1) := by
  simp only [mask, wd_even]
  omega

/-- R123: a folded overflow this small overflows limb 1 by at most one unit. -/
theorem fold_overflows (h : 19 * topOverflow z + mask 0 < 2 ^ 26 * (2 ^ 25 + 1)) :
    foldedLimb0 z >>> 26 ≤ 2 ^ 25 ∧ foldedLimb1 z < 2 ^ 26 ∧ foldedLimb1 z >>> 25 ≤ 1 := by
  have h0 := foldedLimb0_le z
  have h1 := foldedLimb1_le z
  simp only [mask, wd_even, wd_odd, Nat.shiftRight_eq_div_pow] at h h0 h1 ⊢
  omega

theorem chain_tight_of_fold_lt (h : 19 * topOverflow z + mask 0 < 2 ^ 26 * (2 ^ 25 + 1)) : Tight (chain z) := by
  obtain ⟨-, -, hone⟩ := fold_overflows h
  intro i
  by_cases hi : i = 2
  · rw [hi]
    exact (chain_two_le z).trans (Nat.add_le_add_left hone _)
  · exact (chain_le_mask z hi).trans (Nat.sub_le _ _)

/-- With nothing to fold, nothing overflows a second time. -/
theorem chain_le_mask_of_topOverflow_eq_zero (h : topOverflow z = 0) (i : Fin 10) : chain z i ≤ mask i := by
  by_cases hi : i = 2
  · have h0 := foldedLimb0_le z
    have h1 := foldedLimb1_le z
    have h2 := chain_two_le z
    simp only [hi, mask, wd_even, wd_odd, Nat.shiftRight_eq_div_pow] at h0 h1 h2 ⊢
    omega
  · exact chain_le_mask z hi

/-! ### Widths -/

/-- R123, in `carry`: no limb of a loose vector overflows by more than 3. -/
theorem Loose.chain_widths (h : Loose z) :
    (∀ i : Fin 10, passSum z i.val ≤ looseMax i + 4 ∧ passSum z i.val < 2 ^ 28) ∧ topOverflow z ≤ 3 ∧
      foldedLimb0 z ≤ 0x3FFFFFF + 57 := by
  have hc : ∀ i, (looseMax i + 3) >>> wd i ≤ 3 := by decide
  have hlt : ∀ i, looseMax i + 3 < 2 ^ 28 := by decide
  have hsum := passSum_le h hc
  have htop : topOverflow z ≤ 3 := passSum_overflow_le h hc 9
  exact ⟨fun i => ⟨(hsum i).trans (Nat.le_succ _), (hsum i).trans_lt (hlt i)⟩, htop,
    (foldedLimb0_le z).trans (Nat.add_le_add_left (Nat.mul_le_mul_left 19 htop) _)⟩

/-- R123, in the other commands: no accumulator below 2^63 overflows by 2^39. -/
theorem chain_widths_of_lt (h : ∀ i, z i < 2 ^ 63) :
    (∀ i : Fin 10, passSum z i.val >>> wd i < 2 ^ 39 ∧ passSum z i.val < 2 ^ 63 + 2 ^ 39) ∧
      topOverflow z < 2 ^ 39 ∧ 19 * topOverflow z < 2 ^ 44 ∧ foldedLimb0 z < 2 ^ 45 ∧
      foldedLimb0 z >>> 26 < 2 ^ 19 := by
  have hc : ∀ i, (2 ^ 63 + (2 ^ 39 - 1)) >>> wd i ≤ 2 ^ 39 - 1 := by decide
  have hsum := passSum_le (fun i => (h i).le) hc
  have hover := passSum_overflow_le (fun i => (h i).le) hc
  have htop : topOverflow z ≤ 2 ^ 39 - 1 := hover 9
  have hfold := foldedLimb0_le z
  simp only [mask, wd_even] at hfold
  refine ⟨fun i => ⟨Nat.lt_succ_of_le (hover i), Nat.lt_succ_of_le (hsum i)⟩, ?_⟩
  rw [Nat.shiftRight_eq_div_pow]
  omega

/-! ### Vectors the chain keeps, and vectors it changes -/

/-- R123: no limb within its mask overflows, so the chain gives limbs within their masks of the same value. -/
theorem chain_eq_self (h : ∀ i, z i ≤ mask i) : chain z = z := by
  have hc : ∀ i, (mask i + 0) >>> wd i ≤ 0 := by decide
  have htop : topOverflow z = 0 := Nat.le_zero.1 (passSum_overflow_le h hc 9)
  have hvalue : eval (chain z) = eval z := by rw [← eval_chain z, htop, Nat.zero_mul, Nat.add_zero]
  rw [← digitsOf_eval (chain_le_mask_of_topOverflow_eq_zero htop), hvalue, digitsOf_eval h]

end

/-- The digits of p are within their masks, and the chain does not take p away. -/
theorem exists_chain_noncanonical : ∃ z, P ≤ eval (chain z) ∧ eval (chain z) < 2 * P := by
  refine ⟨pDigit, ?_⟩
  rw [chain_eq_self (by decide)]
  decide

/-- Limb 0 of a tight vector may exceed its mask. -/
theorem exists_tight_chain_ne : ∃ z, Tight z ∧ chain z ≠ z := by
  refine ⟨tightMax, fun _ => le_rfl, fun h => ?_⟩
  have hle := chain_le_mask tightMax (i := 0) (by decide)
  rw [h] at hle
  exact absurd hle (by decide)

/-- R121, corner cases: the fold overflows limb 0, then limb 1, and leaves limb 2 above its mask. -/
def ripplingLimbs : Digits := ![0x3FFFFFF, 0x1FFFFFF, 0x3FFFFFF, 0, 0, 0, 0, 0, 0, 0x2000000]

theorem chain_ripplingLimbs : chain ripplingLimbs = ![0x12, 0, 0x4000000, 0, 0, 0, 0, 0, 0, 0] := by
  funext i
  revert i
  decide

theorem exists_loose_chain_chain_ne : ∃ z, Loose z ∧ chain (chain z) ≠ chain z := by
  refine ⟨ripplingLimbs, by decide, fun h => ?_⟩
  rw [chain_ripplingLimbs] at h
  exact absurd (congrFun h 2) (by decide)

/-! ### The rules -/

/-- Settles O32: one bound on the overflows of pass 1 gives the widths and the identity, and the overflow of limb 9
bounds the rest. -/
theorem chainProperties : Obligations.ChainProperties := by
  refine ⟨fun z => ⟨⟨eval_chain z, eval_chain_modEq z⟩, ?bounds,
    ⟨fold_lt_of_topOverflow_lt, fun hfold => ?tight⟩,
    Loose.chain_widths, chain_widths_of_lt, chain_eq_self⟩,
    exists_chain_noncanonical, exists_tight_chain_ne, exists_loose_chain_chain_ne⟩
  case bounds =>
    exact ⟨chain_le_mask z (by decide), chain_le_mask z (by decide),
      fun i hi => chain_le_mask z (by rintro rfl; omega), chain_two_le z⟩
  case tight =>
    obtain ⟨h0, h1, hone⟩ := fold_overflows hfold
    have htight := chain_tight_of_fold_lt hfold
    exact ⟨h0, h1, hone, htight 2, htight⟩

/-- R27: the value of a tight vector is below 2P. -/
theorem Tight.eval_lt {x : Digits} (h : Tight x) : eval x < 2 * P := h.eval_le.trans_lt (by decide)

/-- Settles O33: a loose vector's chain is tight, so it is stored exactly. -/
theorem carryRule : Obligations.CarryRule := by
  refine ⟨fun w d a => (decode_eq_ok_iff w _).trans (pack_ab_eq_iff (by decide) d a w),
    fun s d a herr => ⟨formChecked herr _, fun hwf => (carry_retires herr hwf).mono fun t ht ha => ?_⟩⟩
  have htight := ha.chain_tight
  rw [ht ha]
  exact ⟨rfl, htight, chain_le_mask _ (by decide), chain_le_mask _ (by decide), htight 2,
    fun i hi => chain_le_mask _ (by rintro rfl; omega), eval_chain_modEq _, htight.eval_lt⟩

/-- Settles O34: the destination reads as the source did, whatever its limbs. -/
theorem relaxRule : Obligations.RelaxRule := by
  refine ⟨fun w d a => (decode_eq_ok_iff w _).trans (pack_ab_eq_iff (by decide) d a w),
    fun s d a herr => ⟨formChecked herr _, fun hwf => (retires_writeF rfl rfl herr hwf).mono fun t ht => ?_⟩⟩
  rw [ht]
  exact ⟨rfl, fun ha => ⟨ha, ha.loose⟩⟩

end Sys2Proof.Machine
end

section
/-! SUPPORT. The multiplier's accumulators (R130, R133, R134), and the rules of `carry_mul` (R131) and `carry_square`
(R132). -/

namespace Sys2Proof.Machine

/-! ### The accumulators as sums over pairs -/

theorem factor_mem (i j : Nat) : factor i j ∈ [1, 2, 19, 38] := by
  unfold factor
  split_ifs <;> decide

theorem factor_comm (i j : Nat) : factor i j = factor j i := by
  simp only [factor, and_comm, Nat.add_comm]

theorem acc_eq_sum (a b : Digits) (k : Fin 10) :
    acc a b k = ∑ i, factor i.val (k - i).val * a i * b (k - i) := total_eq_sum _

/-- The second index of a pair that lands in accumulator `k` is `k - i`. -/
theorem acc_eq_pair_sum (a b : Digits) (k : Fin 10) :
    acc a b k = ∑ i : Fin 10, ∑ j : Fin 10,
      if (i.val + j.val) % 10 = k.val then factor i.val j.val * a i * b j else 0 := by
  have hpartner (i j : Fin 10) : (i.val + j.val) % 10 = k.val ↔ j = k - i := by
    rw [← Fin.val_add, ← Fin.ext_iff, eq_sub_iff_add_eq']
  simp only [acc_eq_sum, hpartner, Finset.sum_ite_eq', Finset.mem_univ, if_true]

/-- Settles O35: each index has one partner for each accumulator. -/
theorem accumulatorIsThePairSum : Obligations.AccumulatorIsThePairSum :=
  ⟨fun _ _ => ⟨rfl, factor_mem _ _, factor_comm _ _⟩, acc_eq_pair_sum⟩

/-! ### The value of the accumulators -/

theorem expo_add : ∀ i j : Fin 10, expo i + expo j = expo (i + j) + (if 10 ≤ i.val + j.val then 255 else 0) +
    (if i.val % 2 = 1 ∧ j.val % 2 = 1 then 1 else 0) := by decide

/-- R133: where no pair wraps, the factor makes up for the rounding of the exponents. -/
theorem factor_weight_of_lt {i j : Fin 10} (h : i.val + j.val < 10) :
    factor i.val j.val * 2 ^ expo (i + j) = 2 ^ expo i * 2 ^ expo j := by
  rw [← pow_add, expo_add, if_neg h.not_ge, factor, if_neg h.not_ge]
  split_ifs <;> ring

/-- R133: a factor times the weight of its accumulator is the weight of the pair, mod p. -/
theorem factor_weight_modEq (i j : Fin 10) :
    factor i.val j.val * 2 ^ expo (i + j) ≡ 2 ^ expo i * 2 ^ expo j [MOD P] := by
  rcases Nat.lt_or_ge (i.val + j.val) 10 with hlt | hge
  · rw [factor_weight_of_lt hlt]
  · have hfold : foldConst ≡ 2 ^ 255 [MOD P] := by decide
    rw [← pow_add, expo_add, if_pos hge, factor, if_pos hge]
    split_ifs
    · convert hfold.mul_left (2 * 2 ^ expo (i + j)) using 1 <;> ring
    · convert hfold.mul_left (2 ^ expo (i + j)) using 1 <;> ring

theorem eval_acc (a b : Digits) :
    eval (acc a b) = ∑ i, ∑ j, factor i.val j.val * 2 ^ expo (i + j) * (a i * b j) := by
  calc eval (acc a b)
      = ∑ k, ∑ i, factor i.val (k - i).val * 2 ^ expo k * (a i * b (k - i)) := by
        simp only [eval, total_eq_sum, acc_eq_sum, Finset.sum_mul]
        exact Fintype.sum_congr _ _ fun k => Fintype.sum_congr _ _ fun i => by ring
    _ = ∑ i, ∑ k, factor i.val (k - i).val * 2 ^ expo k * (a i * b (k - i)) := Finset.sum_comm
    _ = ∑ i, ∑ j, factor i.val j.val * 2 ^ expo (i + j) * (a i * b j) :=
        Fintype.sum_congr _ _ fun i => by
          rw [← Equiv.sum_comp (Equiv.addLeft i)]
          simp only [Equiv.coe_addLeft, add_sub_cancel_left]

theorem eval_mul_eval (a b : Digits) :
    eval a * eval b = ∑ i, ∑ j, 2 ^ expo i * 2 ^ expo j * (a i * b j) := by
  simp only [eval, total_eq_sum, Finset.sum_mul_sum]
  exact Fintype.sum_congr _ _ fun i => Fintype.sum_congr _ _ fun j => by ring

theorem eval_acc_modEq (a b : Digits) : eval (acc a b) ≡ eval a * eval b [MOD P] := by
  rw [eval_acc, eval_mul_eval]
  exact .sum fun i _ => .sum fun j _ => (factor_weight_modEq i j).mul_right _

theorem eval_acc_of_no_wrap {a b : Digits} (h : ∀ i j : Fin 10, 10 ≤ i.val + j.val → a i * b j = 0) :
    eval (acc a b) = eval a * eval b := by
  rw [eval_acc, eval_mul_eval]
  refine Fintype.sum_congr _ _ fun i => Fintype.sum_congr _ _ fun j => ?_
  rcases Nat.lt_or_ge (i.val + j.val) 10 with hlt | hge
  · rw [factor_weight_of_lt hlt]
  · rw [h i j hge, Nat.mul_zero, Nat.mul_zero]

/-- Settles O36: pair by pair, the accumulators' value and the product differ by multiples of p where a pair wraps, and
not at all elsewhere. -/
theorem accumulatorsRepresentTheProduct : Obligations.AccumulatorsRepresentTheProduct :=
  ⟨expo_add, fun a b => ⟨eval_acc_modEq a b, eval_acc_of_no_wrap⟩⟩

/-! ### Widths -/

theorem acc_mono {a b x y : Digits} (ha : ∀ i, a i ≤ x i) (hb : ∀ i, b i ≤ y i) (k : Fin 10) :
    acc a b k ≤ acc x y k := by
  rw [acc_eq_sum, acc_eq_sum]
  exact Finset.sum_le_sum fun i _ => Nat.mul_le_mul (Nat.mul_le_mul_left _ (ha i)) (hb (k - i))

theorem acc_looseMax_zero : acc looseMax looseMax 0 = 0x4608000000000000 := by decide

/-- Accumulator 0 takes the most wrapping pairs. -/
theorem acc_looseMax_le : ∀ k, acc looseMax looseMax k ≤ acc looseMax looseMax 0 := by decide

theorem factor_mul_looseMax_le : ∀ i j : Fin 10, factor i.val j.val * looseMax i ≤ 0xE4000000 := by decide

theorem Loose.factor_mul_le {a : Digits} (ha : Loose a) (i j : Fin 10) : factor i.val j.val * a i ≤ 0xE4000000 :=
  (Nat.mul_le_mul_left _ (ha i)).trans (factor_mul_looseMax_le i j)

section

variable {a b : Digits}

theorem Loose.acc_le (ha : Loose a) (hb : Loose b) (k : Fin 10) : acc a b k ≤ acc looseMax looseMax 0 :=
  (acc_mono ha hb k).trans (acc_looseMax_le k)

theorem Loose.acc_lt (ha : Loose a) (hb : Loose b) (k : Fin 10) : acc a b k < 2 ^ 63 :=
  (ha.acc_le hb k).trans_lt (by rw [acc_looseMax_zero]; decide)

/-- R123, R131: the chain of the accumulators of loose operands is tight. -/
theorem Loose.chain_acc_tight (ha : Loose a) (hb : Loose b) : Tight (chain (acc a b)) := by
  obtain ⟨-, htop, -⟩ := chain_widths_of_lt (ha.acc_lt hb)
  exact chain_tight_of_fold_lt (fold_lt_of_topOverflow_lt (htop.trans (by decide)))

end

/-- Settles O37: the accumulators grow with the operands, so the vector of loose bounds gives the largest. -/
theorem accumulatorWidths : Obligations.AccumulatorWidths := by
  refine ⟨acc_looseMax_zero, fun a b ha hb => ⟨fun k => ⟨ha.acc_le hb k, ha.acc_lt hb k⟩, fun i => ?_,
    fun i j => ⟨ha.factor_mul_le i j, (ha.factor_mul_le i j).trans_lt (by decide)⟩⟩⟩
  obtain ⟨hsum, -⟩ := chain_widths_of_lt (ha.acc_lt hb)
  exact (hsum i).2.trans (by decide)

/-! ### The rules -/

section

variable {s : State} {d a b : FIdx}

theorem carryMul_retires (herr : s.err = false) (hwf : Instr.wf s.counts (.carryMul d a b) = true) :
    Retires (.carryMul d a b) s fun t => Loose (digits (s.readF a)) → Loose (digits (s.readF b)) →
      digits (t.readF d) = chain (acc (digits (s.readF a)) (digits (s.readF b))) :=
  (retires_writeF rfl rfl herr hwf).mono fun t ht ha hb => by
    rw [ht, if_pos ⟨ha, hb⟩, digits_ofDigits (ha.chain_acc_tight hb).loose.lt_two_pow]

theorem carrySquare_retires (herr : s.err = false) (hwf : Instr.wf s.counts (.carrySquare d a) = true) :
    Retires (.carrySquare d a) s fun t => Loose (digits (s.readF a)) →
      digits (t.readF d) = chain (acc (digits (s.readF a)) (digits (s.readF a))) :=
  (retires_writeF rfl rfl herr hwf).mono fun t ht ha => by
    rw [ht, if_pos ha, digits_ofDigits (ha.chain_acc_tight ha).loose.lt_two_pow]

end

/-- The checks on the form of `carry_square` are those of `carry_mul` with the one source twice. -/
theorem wf_carryMul_same (c : Counts) (d a : FIdx) : Instr.wf c (.carryMul d a a) = Instr.wf c (.carrySquare d a) := by
  simp [Instr.wf, Instr.inRange, Instr.noAlias, Bool.and_assoc]

theorem digits_injective : Function.Injective digits := Function.LeftInverse.injective ofDigits_digits

theorem eval_chain_acc_modEq (x y : Digits) : eval (chain (acc x y)) ≡ eval x * eval y [MOD P] :=
  (eval_chain_modEq _).trans (eval_acc_modEq x y)

/-- Settles O38: the chain of a loose product's accumulators is tight, so it is stored exactly. -/
theorem carryMulRule : Obligations.CarryMulRule := by
  refine ⟨fun w d a b => (decode_eq_ok_iff w _).trans (pack_abc_eq_iff (by decide) d a b w),
    fun s d a b herr => ⟨formChecked herr _, fun hwf => (carryMul_retires herr hwf).mono fun t ht ha hb => ?_⟩⟩
  rw [ht ha hb]
  exact ⟨rfl, ha.chain_acc_tight hb, fun i => chain_le_mask _, eval_chain_acc_modEq _ _⟩

/-- Settles O39: the rule of `carry_mul` with the one source twice, whose form is accepted exactly when this one is. -/
theorem carrySquareRule : Obligations.CarrySquareRule := by
  refine ⟨fun w d a => (decode_eq_ok_iff w _).trans (pack_ab_eq_iff (by decide) d a w),
    fun s d a herr => ⟨formChecked herr _, fun hwf => (carrySquare_retires herr hwf).mono fun t ht ha => ?_⟩⟩
  obtain ⟨u, hexec, -, -, hu⟩ := carryMul_retires herr ((wf_carryMul_same s.counts d a).trans hwf)
  have hsame : u.readF d = t.readF d := digits_injective ((hu ha ha).trans (ht ha).symm)
  rw [ht ha, sq]
  exact ⟨rfl, ha.chain_acc_tight ha, eval_chain_acc_modEq _ _, u, hexec, hsame⟩

end Sys2Proof.Machine
end

section
/-! SUPPORT. The limbs multiplied by the constant, and the rule of `carry_scmul_const` (R140). -/

namespace Sys2Proof.Machine

/-! ### The multiplied limbs -/

theorem eval_scmulLimbs (x : Digits) : eval (scmulLimbs x) = scmulConst * eval x := by
  simp only [eval_eq, scmulLimbs]
  ring

theorem eval_chain_scmulLimbs_modEq (x : Digits) : eval (chain (scmulLimbs x)) ≡ scmulConst * eval x [MOD P] :=
  (eval_chain_modEq _).trans (congrArg (· % P) (eval_scmulLimbs x))

/-! ### Widths -/

section

variable {x : Digits} (hx : Loose x)

include hx

theorem Loose.scmulLimbs_le (i : Fin 10) : scmulLimbs x i ≤ scmulLimbs looseMax i := Nat.mul_le_mul_left _ (hx i)

/-- R140: a 17-bit constant times a limb below 2^28. -/
theorem Loose.scmulLimbs_lt (i : Fin 10) : scmulLimbs x i < 2 ^ 45 :=
  (hx.scmulLimbs_le i).trans_lt ((by decide : ∀ i, scmulLimbs looseMax i < 2 ^ 45) i)

/-- R140: a multiplied limb, with the overflow from below, overflows by at most the constant times the loose factor. -/
theorem Loose.scmulLimbs_chain_widths :
    (∀ i : Fin 10, passSum (scmulLimbs x) i.val < 2 ^ 46) ∧ topOverflow (scmulLimbs x) < 2 ^ 21 := by
  have hc : ∀ i, (scmulLimbs looseMax i + scmulConst * looseFactor) >>> wd i ≤ scmulConst * looseFactor := by decide
  have hlt : ∀ i, scmulLimbs looseMax i + scmulConst * looseFactor < 2 ^ 46 := by decide
  have hle := hx.scmulLimbs_le
  exact ⟨fun i => (passSum_le hle hc i).trans_lt (hlt i), (passSum_overflow_le hle hc 9).trans_lt (by decide)⟩

/-- R123, R140: what the overflow of limb 9 folds back is small enough for the chain to be tight. -/
theorem Loose.chain_scmulLimbs_tight : Tight (chain (scmulLimbs x)) := by
  obtain ⟨-, htop⟩ := hx.scmulLimbs_chain_widths
  exact chain_tight_of_fold_lt (fold_lt_of_topOverflow_lt (htop.trans (by decide)))

end

/-! ### The rule -/

theorem carryScmulConst_retires {s : State} {d a : FIdx} (herr : s.err = false)
    (hwf : Instr.wf s.counts (.carryScmulConst d a) = true) :
    Retires (.carryScmulConst d a) s fun t => Loose (digits (s.readF a)) →
      digits (t.readF d) = chain (scmulLimbs (digits (s.readF a))) :=
  (retires_writeF rfl rfl herr hwf).mono fun t ht ha => by
    rw [ht, if_pos ha, digits_ofDigits ha.chain_scmulLimbs_tight.loose.lt_two_pow]

/-- Settles O40: the chain of a loose vector's multiplied limbs is tight, so it is stored exactly. -/
theorem carryScmulConstRule : Obligations.CarryScmulConstRule := by
  refine ⟨fun w d a => (decode_eq_ok_iff w _).trans (pack_ab_eq_iff (by decide) d a w),
    fun s d a herr => ⟨formChecked herr _, fun hwf => (carryScmulConst_retires herr hwf).mono fun t ht ha => ?_⟩⟩
  obtain ⟨hsum, htop⟩ := ha.scmulLimbs_chain_widths
  rw [ht ha]
  exact ⟨rfl, ha.scmulLimbs_lt, hsum, htop, ha.chain_scmulLimbs_tight, eval_chain_scmulLimbs_modEq _⟩

end Sys2Proof.Machine
end

section
/-! SUPPORT. The selector (R148), the rules of `cmov` (R145) and `select` (R146), and the swap that two `select`
commands make. -/

namespace Sys2Proof.Machine

/-! ### The selector -/

theorem selMask_zero : selMask 0 = 0#32 := by decide

theorem selMask_one : selMask 1 = BitVec.allOnes 32 := by decide

theorem sel_zero (u v : Word) : sel 0 u v = u := by
  rw [sel, selMask_zero, BitVec.and_zero, BitVec.zero_or, BitVec.not_zero, BitVec.and_allOnes]

theorem sel_one (u v : Word) : sel 1 u v = v := by
  rw [sel, selMask_one, BitVec.and_allOnes, BitVec.not_allOnes, BitVec.and_zero, BitVec.or_zero]

/-- R148: the mask's number does not wrap when it is stored as a word. -/
theorem selMask_toNat (c : Word) : (selMask c).toNat = (2 ^ 32 - c.toNat) % 2 ^ 32 := by
  rw [selMask, BitVec.toNat_ofNat, Nat.mod_mod]

/-- Settles O41: the mask is no bit or every bit, so the merge takes one of the two words whole. -/
theorem selectorIsTheMaskMerge : Obligations.SelectorIsTheMaskMerge :=
  ⟨selMask_zero, selMask_one, fun u v => ⟨⟨sel_zero u v, sel_one u v⟩, fun c _ => ⟨selMask_toNat c, rfl⟩⟩⟩

/-- R146: the ten lanes of `select`, with one predicate word (R149). -/
def selLimbs (c : Word) (x y : Limbs) : Limbs := Vector.ofFn fun i => sel c x[i] y[i]

theorem selLimbs_zero (x y : Limbs) : selLimbs 0 x y = x := by
  simp only [selLimbs, sel_zero]
  exact Vector.ofFn_getElem

theorem selLimbs_one (x y : Limbs) : selLimbs 1 x y = y := by
  simp only [selLimbs, sel_one]
  exact Vector.ofFn_getElem

/-! ### Form and retirement -/

/-- A row that uses every field: `match`, `mask` and the four fields determine the word. -/
theorem pack_abcd_eq_iff {op : Nat} (hop : op < 256) (d a b p : Fin 16) (w : Word) :
    pack op d a b p = w ↔
      w &&& 0xFF0000FF#32 = BitVec.ofNat 32 op ∧ (fields w).rd = d ∧ (fields w).ra = a ∧ (fields w).rb = b ∧
        (fields w).rc = p := by
  rw [masked_abcd w op hop]
  constructor
  · rintro rfl
    simp [fields_pack _ _ _ _ _ hop]
  · rintro ⟨⟨hw, hzero⟩, rfl, rfl, rfl, rfl⟩
    rw [← hw, pack_fields w hzero]

/-- R89 step 4: the destination of a command whose form is accepted is no source, so a written source stays written and
reads as before. -/
theorem source_kept {i : Instr} {s t : State} {r : Reg} (hwf : i.wf s.counts = true) (hexec : exec i s = .next t)
    (hr : r ∈ sourcesOf i) (hw : s.written r = true) : t.written r = true ∧ SameRead s t r := by
  obtain ⟨-, halias⟩ : i.inRange s.counts = true ∧ i.noAlias = true := by simpa [Instr.wf] using hwf
  exact otherRegistersKeepTheirValues i s t r hexec hw ((noAlias_iff i).1 halias r hr)

/-- A command whose effect is one write of `W[d]` leaves there the word it computes from the state it starts in. -/
theorem retires_writeW {s : State} {i : Instr} {d : WIdx} {v : State → Word} (hdest : destOf i = ⟨.W, d⟩)
    (hexec : exec i s = command i (fun u => u.writeW d (v u)) s) (herr : s.err = false)
    (hwf : i.wf s.counts = true) : Retires i s fun t => t.readW d = v s := by
  have hd : d.val < s.w.length := by simpa [hdest, countOf, State.counts] using destOf_lt_of_wf hwf
  rw [Retires, hdest]
  exact ⟨(s.writeW d (v s)).retire, by rw [hexec, command, State.perform_wf herr hwf],
    (OnlyChanges.writeW s d (v s)).retire, s.written_writeW (v s) hd, s.readW_retire_writeW (v s) hd⟩

theorem cmov_retires {s : State} {d a b p : WIdx} (herr : s.err = false)
    (hwf : Instr.wf s.counts (.cmov d a b p) = true) :
    Retires (.cmov d a b p) s fun t => Predicate (s.readW p) →
      t.readW d = sel (s.readW p) (s.readW a) (s.readW b) :=
  (retires_writeW rfl rfl herr hwf).mono fun t ht hp => by rw [ht, if_pos hp]

theorem select_retires {s : State} {d a b : FIdx} {p : WIdx} (herr : s.err = false)
    (hwf : Instr.wf s.counts (.select d a b p) = true) :
    Retires (.select d a b p) s fun t => Predicate (s.readW p) →
      t.readF d = selLimbs (s.readW p) (s.readF a) (s.readF b) :=
  (retires_writeF rfl rfl herr hwf).mono fun t ht hp => by rw [ht, if_pos hp, selLimbs]

/-! ### The rules -/

/-- Settles O42: the selector takes the word the predicate names. -/
theorem cmovRule : Obligations.CmovRule := by
  refine ⟨fun w d a b p => (decode_eq_ok_iff w _).trans (pack_abcd_eq_iff (by decide) d a b p w),
    fun s d a b p herr => ⟨formChecked herr _, fun hwf => (cmov_retires herr hwf).mono fun t ht => ⟨?_, ?_⟩⟩⟩
  · intro hp
    rw [ht (.inl hp), hp, sel_zero]
  · intro hp
    rw [ht (.inr hp), hp, sel_one]

/-- Settles O43: the destination reads as one of the two sources, so it has any shape that both have. -/
theorem selectRule : Obligations.SelectRule := by
  refine ⟨fun w d a b p => (decode_eq_ok_iff w _).trans (pack_abcd_eq_iff (by decide) d a b p w),
    fun s d a b p herr => ⟨formChecked herr _, fun hwf => (select_retires herr hwf).mono fun t ht => ?_⟩⟩
  have hzero (hp : s.readW p = 0) : t.readF d = s.readF a := by rw [ht (.inl hp), hp, selLimbs_zero]
  have hone (hp : s.readW p = 1) : t.readF d = s.readF b := by rw [ht (.inr hp), hp, selLimbs_one]
  refine ⟨hzero, hone, fun hp => ?_⟩
  rcases hp with hp | hp
  · rw [hzero hp]
    exact ⟨fun ha _ => ha, fun ha _ => ha⟩
  · rw [hone hp]
    exact ⟨fun _ hb => hb, fun _ hb => hb⟩

/-- Settles O44: the second `select` reads the sources and the predicate as the first did, since no destination is a
source, and leaves the first one's destination alone. -/
theorem twoSelectsSwap : Obligations.TwoSelectsSwap := by
  intro s d e a b p herr hwfd hwfe hde hwa hwb hwp
  obtain ⟨t, hexect, hframe, hwd, htd⟩ := select_retires herr hwfd
  rw [← hframe.counts] at hwfe
  obtain ⟨u, hexecu, -, -, hue⟩ := select_retires (hframe.control.err.trans herr) hwfe
  obtain ⟨hwat, hat : s.readF a = t.readF a⟩ := source_kept hwfd hexect (by simp [sourcesOf]) hwa
  obtain ⟨hwbt, hbt : s.readF b = t.readF b⟩ := source_kept hwfd hexect (by simp [sourcesOf]) hwb
  obtain ⟨-, hpt : s.readW p = t.readW p⟩ := source_kept hwfd hexect (by simp [sourcesOf]) hwp
  obtain ⟨-, hau : t.readF a = u.readF a⟩ := source_kept hwfe hexecu (by simp [sourcesOf]) hwat
  obtain ⟨-, hbu : t.readF b = u.readF b⟩ := source_kept hwfe hexecu (by simp [sourcesOf]) hwbt
  obtain ⟨-, hdu : t.readF d = u.readF d⟩ :=
    otherRegistersKeepTheirValues _ t u ⟨.F, d⟩ hexecu hwd (by simpa [destOf] using hde)
  rw [hdu] at htd
  rw [← hat, ← hbt, ← hpt] at hue
  refine ⟨t, u, hexect, hexecu, fun hp => ?_, fun hp => ?_, (hat.trans hau).symm, (hbt.trans hbu).symm⟩
  · rw [htd (.inl hp), hue (.inl hp), hp, selLimbs_zero, selLimbs_zero]
    exact ⟨rfl, rfl⟩
  · rw [htd (.inr hp), hue (.inr hp), hp, selLimbs_one, selLimbs_one]
    exact ⟨rfl, rfl⟩

end Sys2Proof.Machine
end

section
/-! SUPPORT. The bits of an integer in its bytes and in its limbs (R158), and what `to_bytes` packs (R155). -/

namespace Sys2Proof.Machine

theorem testBit_bits (v lo n q : Nat) : (bits v lo n).testBit q = (decide (q < n) && v.testBit (lo + q)) := by
  rw [bits, Nat.testBit_mod_two_pow, Nat.testBit_div_two_pow, Nat.add_comm]

/-- R10: the bits of a number by a shift and a mask of `n` ones. -/
theorem shiftRight_land_mask (v : Nat) (i : Fin 10) : (v >>> expo i) &&& mask i = digitsOf v i := by
  rw [land_mask, Nat.shiftRight_eq_div_pow, digitsOf, bits]

/-! ### Bytes -/

theorem leValue_lt (b : Buffer) : leValue b < 2 ^ 256 := by
  simpa only [leValue, Vector.length_toList] using leList_lt b.toList

/-- R158: bit `n mod 8` of byte `n div 8` of a buffer is bit `n` of the integer it encodes. -/
theorem testBit_leValue (b : Buffer) {n : Nat} (h : n / 8 < 32) :
    (leValue b).testBit n = b[n / 8].getLsbD (n % 8) := by
  have hbyte : bits (leValue b) (8 * (n / 8)) 8 = b[n / 8].toNat := by
    rw [← Vector.getElem_toList]
    exact leList_byte b.toList (n / 8) (by simpa using h)
  rw [BitVec.getLsbD, ← hbyte, testBit_bits, Nat.div_add_mod]
  simp [Nat.mod_lt]

/-- R158: bit `n mod 8` of packed byte `n div 8` is bit `n` of the packed integer. -/
theorem getLsbD_packBytes (c : Nat) {n : Nat} (h : n / 8 < 32) :
    (packBytes c)[n / 8].getLsbD (n % 8) = c.testBit n := by
  rw [BitVec.getLsbD, packBytes_byte c _ h, testBit_bits, Nat.div_add_mod]
  simp [Nat.mod_lt]

/-- R155: the packed bytes encode the packed integer. -/
theorem leValue_packBytes {c : Nat} (h : c < 2 ^ 256) : leValue (packBytes c) = c := by
  refine Nat.eq_of_testBit_eq fun n => ?_
  rcases Nat.lt_or_ge n 256 with hn | hn
  · have hbyte : n / 8 < 32 := by omega
    rw [testBit_leValue _ hbyte, getLsbD_packBytes c hbyte]
  · have hle : 2 ^ 256 ≤ 2 ^ n := Nat.pow_le_pow_right (by decide) hn
    rw [Nat.testBit_eq_false_of_lt ((leValue_lt _).trans_le hle), Nat.testBit_eq_false_of_lt (h.trans_le hle)]

theorem getLsbD_packBytes_top {c : Nat} (h : c < 2 ^ 255) : (packBytes c)[(31 : Fin 32)].getLsbD 7 = false :=
  (getLsbD_packBytes c (n := 255) (by decide)).trans (Nat.testBit_eq_false_of_lt h)

/-! ### Limbs -/

theorem expo_add_wd_le : ∀ i, expo i + wd i ≤ 255 := by decide

/-- R158: bit `q` of limb `i` is bit `E(i) + q` of the buffer's integer, below its bit 255. -/
theorem testBit_unpackLimbs (b : Buffer) {i : Fin 10} {q : Nat} (hq : q < wd i) :
    (unpackLimbs b i).testBit q = (leValue b).testBit (expo i + q) := by
  have hlt : expo i + q < 255 := by
    have := expo_add_wd_le i
    omega
  rw [unpackLimbs, shiftRight_land_mask, digitsOf, testBit_bits, Nat.testBit_mod_two_pow]
  simp [hq, hlt]

/-- Settles O48: bits of bytes and of limbs are bits of the integer at their offsets. -/
theorem bitPositionsOfTheCodec : Obligations.BitPositionsOfTheCodec :=
  ⟨fun b _ => testBit_leValue b _, fun c _ _ => getLsbD_packBytes c _,
    fun b _ _ hq h => (testBit_unpackLimbs b hq).trans (testBit_leValue b h), fun _ => getLsbD_packBytes_top⟩

end Sys2Proof.Machine
end

section
/-! SUPPORT. The borrow chain that subtracts p's digits (R156), and the canonical integer it chooses (R155). -/

namespace Sys2Proof.Machine

/-- R156: what is left of limb `i` when p's digit and the borrow are taken away. -/
def borrowDiff (x : Digits) (i : Fin 10) : Int := (x i : Int) - (pDigit i : Int) - (borrowInto x i.val : Int)

theorem borrowInto_succ (x : Digits) (i : Fin 10) :
    borrowInto x (i.val + 1) = if borrowDiff x i < 0 then 1 else 0 := by
  have hi : Fin.ofNat 10 i.val = i := Fin.ext (Nat.mod_eq_of_lt i.isLt)
  rw [borrowInto, hi]
  rfl

theorem borrowInto_le_one (x : Digits) (n : Nat) : borrowInto x n ≤ 1 := by
  cases n with
  | zero => exact Nat.zero_le 1
  | succ n =>
    rw [borrowInto]
    split <;> decide

/-- R156: the borrow into limb `n`, with the weight of that limb. -/
def weightedBorrow (x : Digits) (n : Nat) : Int := (borrowInto x n : Int) * 2 ^ ((51 * n + 1) / 2)

theorem borrowDigit_le_mask (x : Digits) (i : Fin 10) : borrowDigit x i ≤ mask i := by
  have hpos : (0 : Int) < 2 ^ wd i := by positivity
  refine Nat.le_sub_one_of_lt ((Int.toNat_lt (Int.emod_nonneg _ hpos.ne')).2 ?_)
  push_cast
  exact Int.emod_lt_of_pos _ hpos

/-- R24: p's digits are 2^26 - 19 and, above it, all ones. -/
theorem pDigit_bounds : ∀ i, pDigit i + 1 ≤ tightMax i ∧ tightMax i ≤ pDigit i + 19 := by decide

theorem eval_pDigit : eval pDigit = P := by decide

/-- R22: limb 10 would have weight 2^255. -/
theorem expo_succ : ∀ i : Fin 10, expo i + wd i = (51 * (i.val + 1) + 1) / 2 := by decide

/-- A vector within its masks has a value below 2^255. -/
theorem eval_lt_of_le_mask {x : Digits} (h : ∀ i, x i ≤ mask i) : eval x < 2 ^ 255 := by
  have hb := limb_bounds h
  simp only [mask, wd_even, wd_odd] at hb
  rw [eval_eq]
  omega

theorem eval_cast (x : Digits) : (eval x : Int) = ∑ i, (x i : Int) * 2 ^ expo i := by
  rw [eval, total_eq_sum]
  push_cast
  rfl

section

variable {x : Digits} (hx : Tight x)

include hx

theorem Tight.borrowDiff_bounds (i : Fin 10) : -(2 ^ wd i : Int) ≤ borrowDiff x i ∧ borrowDiff x i ≤ 19 := by
  obtain ⟨hlow, hhigh⟩ := pDigit_bounds i
  have hle := hx i
  have hborrow := borrowInto_le_one x i.val
  have hcast : ((tightMax i : Nat) : Int) = 2 ^ wd i := by rw [tightMax]; push_cast; rfl
  rw [borrowDiff]
  omega

/-- One limb of the subtraction: a borrow out of limb `i` adds 2^Wd(i) to it. -/
theorem Tight.borrowDigit_eq (i : Fin 10) :
    (borrowDigit x i : Int) = borrowDiff x i + (borrowInto x (i.val + 1) : Int) * 2 ^ wd i := by
  obtain ⟨hlow, hhigh⟩ := hx.borrowDiff_bounds i
  have hpow : (19 : Int) < 2 ^ wd i := (by decide : ∀ i, (19 : Int) < 2 ^ wd i) i
  have hdigit : (borrowDigit x i : Int) = borrowDiff x i % 2 ^ wd i :=
    Int.toNat_of_nonneg (Int.emod_nonneg _ (by omega))
  rw [hdigit, borrowInto_succ]
  split_ifs with hneg
  · rw [← Int.add_emod_right, Int.emod_eq_of_lt (by omega) (by omega)]
    simp
  · rw [Int.emod_eq_of_lt (by omega) (by omega)]
    simp

theorem Tight.borrowDigit_weighted (i : Fin 10) : (borrowDigit x i : Int) * 2 ^ expo i =
    (x i : Int) * 2 ^ expo i - (pDigit i : Int) * 2 ^ expo i +
      (weightedBorrow x (i.val + 1) - weightedBorrow x i.val) := by
  have hi : weightedBorrow x i.val = (borrowInto x i.val : Int) * 2 ^ expo i := rfl
  rw [hx.borrowDigit_eq, borrowDiff, hi, weightedBorrow, ← expo_succ, pow_add]
  ring

/-- R156: the borrows telescope, and the borrow out of limb 9 has weight 2^255. -/
theorem Tight.eval_borrowDigit :
    (eval (borrowDigit x) : Int) - (borrowInto x 10 : Int) * 2 ^ 255 = (eval x : Int) - (P : Int) := by
  have htelescope : ∑ i : Fin 10, (weightedBorrow x (i.val + 1) - weightedBorrow x i.val) =
      (borrowInto x 10 : Int) * 2 ^ 255 := by
    rw [Fin.sum_univ_eq_sum_range fun n => weightedBorrow x (n + 1) - weightedBorrow x n, Finset.sum_range_sub]
    simp [weightedBorrow, borrowInto]
  rw [← eval_pDigit, eval_cast, eval_cast x, eval_cast pDigit,
    Finset.sum_congr rfl fun i _ => hx.borrowDigit_weighted i, Finset.sum_add_distrib, Finset.sum_sub_distrib,
    htelescope, add_sub_cancel_right]

theorem Tight.borrowOut_iff : borrowInto x 10 = 1 ↔ eval x < P := by
  have hvalue := hx.eval_borrowDigit
  have hlt := eval_lt_of_le_mask (borrowDigit_le_mask x)
  have hborrow := borrowInto_le_one x 10
  omega

theorem Tight.canonicalByBorrow_eq : canonicalByBorrow x = canonical x := by
  have hvalue := hx.eval_borrowDigit
  have hout := hx.borrowOut_iff
  have hborrow := borrowInto_le_one x 10
  rw [canonicalByBorrow, canonical]
  split_ifs <;> omega

/-- R155: a tight value is below 2P, so one conditional subtraction reduces it. -/
theorem Tight.canonical_eq_mod : canonical x = eval x % P := by
  have hlt := hx.eval_lt
  rw [canonical]
  split_ifs with hle
  · rw [Nat.mod_eq_sub_mod hle, Nat.mod_eq_of_lt (by omega)]
  · exact (Nat.mod_eq_of_lt (Nat.lt_of_not_le hle)).symm

end

/-- Settles O46: limb by limb the borrow pays for the difference, and the borrows telescope. -/
theorem borrowChainIsCanonical : Obligations.BorrowChainIsCanonical := fun x hx =>
  ⟨hx.borrowDiff_bounds, borrowDigit_le_mask x, hx.eval_borrowDigit, hx.borrowOut_iff, hx.canonicalByBorrow_eq,
    hx.canonical_eq_mod⟩

end Sys2Proof.Machine
end

section
/-! SUPPORT. The rules of `to_bytes` (R155) and `from_bytes` (R157), and their round trips (R159). -/

namespace Sys2Proof.Machine

theorem P_pos : 0 < P := by decide

theorem mod_P_lt (n : Nat) : n % P < 2 ^ 255 := (Nat.mod_lt n P_pos).trans (by decide)

/-- R27: limbs within their masks are tight. -/
theorem tight_of_le_mask {x : Digits} (h : ∀ i, x i ≤ mask i) : Tight x := fun i => (h i).trans (Nat.sub_le _ _)

theorem digitsOf_tight (n : Nat) : Tight (digitsOf n) := tight_of_le_mask (digitsOf_le_mask n)

/-! ### Retirement -/

section

variable {s : State}

/-- A command whose effect is one write of `B[d]` leaves there the bytes it computes from the state it starts in. -/
theorem retires_writeB {i : Instr} {d : BIdx} {x : State → Buffer} (hdest : destOf i = ⟨.B, d⟩)
    (hexec : exec i s = command i (fun u => u.writeB d (x u)) s) (herr : s.err = false)
    (hwf : i.wf s.counts = true) : Retires i s fun t => t.readB d = x s := by
  have hd : d.val < s.b.length := by simpa [hdest, countOf, State.counts] using destOf_lt_of_wf hwf
  rw [Retires, hdest]
  exact ⟨(s.writeB d (x s)).retire, by rw [hexec, command, State.perform_wf herr hwf],
    (OnlyChanges.writeB s d (x s)).retire, s.written_writeB (x s) hd, s.readB_retire_writeB (x s) hd⟩

/-- A command that retires leaves an engine with the same counts that has not faulted, for the next command. -/
theorem Retires.exists_next {i : Instr} {p : State → Prop} (h : Retires i s p) (herr : s.err = false) :
    ∃ t, exec i s = .next t ∧ t.err = false ∧ t.counts = s.counts ∧ p t := by
  obtain ⟨t, hexec, hframe, -, hp⟩ := h
  exact ⟨t, hexec, hframe.control.err.trans herr, hframe.counts, hp⟩

theorem toBytes_retires {d : BIdx} {a : FIdx} (herr : s.err = false)
    (hwf : Instr.wf s.counts (.toBytes d a) = true) :
    Retires (.toBytes d a) s fun t => Tight (digits (s.readF a)) →
      t.readB d = packBytes (eval (digits (s.readF a)) % P) :=
  (retires_writeB rfl rfl herr hwf).mono fun t ht ha => by rw [ht, if_pos ha, ha.canonical_eq_mod]

theorem fromBytes_retires {d : FIdx} {a : BIdx} (herr : s.err = false)
    (hwf : Instr.wf s.counts (.fromBytes d a) = true) :
    Retires (.fromBytes d a) s fun t => digits (t.readF d) = digitsOf (leValue (s.readB a) % 2 ^ 255) :=
  (retires_writeF rfl rfl herr hwf).mono fun t ht => by
    have hunpack : unpackLimbs (s.readB a) = digitsOf (leValue (s.readB a) % 2 ^ 255) :=
      funext (shiftRight_land_mask _)
    rw [ht, hunpack, digits_ofDigits (digitsOf_tight _).loose.lt_two_pow]

end

/-! ### The rules -/

/-- Settles O45: the canonical integer of a tight vector is below P, so its 32 bytes encode it. -/
theorem toBytesRule : Obligations.ToBytesRule := by
  refine ⟨fun w d a => (decode_eq_ok_iff w _).trans (pack_ab_eq_iff (by decide) d a w),
    fun s d a herr => ⟨formChecked herr _, fun hwf => (toBytes_retires herr hwf).mono fun t ht ha => ?_⟩⟩
  have hlt := mod_P_lt (eval (digits (s.readF a)))
  have hvalue := leValue_packBytes (hlt.trans (by decide))
  rw [ht ha]
  exact ⟨fun j => packBytes_byte _ j.val j.isLt, hvalue, hvalue.trans_lt (Nat.mod_lt _ P_pos),
    getLsbD_packBytes_top hlt⟩

/-- The limbs that are the digits of `n`, as R157 and R27 ask of them. -/
theorem digitsOf_rule {n : Nat} (h : n < 2 ^ 255) :
    (∀ i, digitsOf n i = (n >>> expo i) &&& mask i) ∧ (∀ i, digitsOf n i ≤ mask i) ∧ Tight (digitsOf n) ∧
      eval (digitsOf n) = n :=
  ⟨fun i => (shiftRight_land_mask n i).symm, digitsOf_le_mask n, digitsOf_tight n, eval_digitsOf h⟩

/-- Settles O47: digits fit their masks, so they are stored exactly. -/
theorem fromBytesRule : Obligations.FromBytesRule := by
  refine ⟨fun w d a => (decode_eq_ok_iff w _).trans (pack_ab_eq_iff (by decide) d a w),
    fun s d a herr => ⟨formChecked herr _, fun hwf => (fromBytes_retires herr hwf).mono fun t ht _ => ?_⟩⟩
  rw [ht]
  exact digitsOf_rule (Nat.mod_lt _ (by decide))

/-- Settles O59: the digits are tight, so `to_bytes` of them encodes their value mod p. -/
theorem fromBytesOfAnyContents : Obligations.FromBytesOfAnyContents := by
  intro s d a m herr hwf
  obtain ⟨t, hexec, hframe, hwritten, ht⟩ := fromBytes_retires herr hwf
  have hrule := digitsOf_rule (Nat.mod_lt (leValue (s.readB a)) (Nat.two_pow_pos 255))
  rw [← ht] at hrule
  obtain ⟨hdigits, hmask, htight, hvalue⟩ := hrule
  refine ⟨t, hexec, hframe, hwritten, hdigits, hmask, htight, hvalue, fun hwfm => ?_⟩
  rw [← hframe.counts] at hwfm
  refine (toBytes_retires (hframe.control.err.trans herr) hwfm).mono fun u hu => ?_
  rw [hu htight, hvalue, leValue_packBytes ((mod_P_lt _).trans (by decide))]

/-! ### The round trips -/

/-- R159: `(V mod 2^255) mod p` is `V` exactly when `V` is below p. -/
theorem mod_mod_P_eq_self_iff (v : Nat) : v % 2 ^ 255 % P = v ↔ v < P := by
  refine ⟨fun h => h ▸ Nat.mod_lt _ P_pos, fun h => ?_⟩
  rw [Nat.mod_eq_of_lt (h.trans (by decide)), Nat.mod_eq_of_lt h]

/-- Settles O49: `to_bytes` writes a value below p, whose digits `from_bytes` gives back, and which `to_bytes` does not
reduce again. -/
theorem codecRoundTrips : Obligations.CodecRoundTrips := by
  refine ⟨fun s k m a d herr hwfk hwfd hwfm _ htight => ?_, fun s k m d herr hwfd hwfm _ => ?_⟩
  · obtain ⟨t, hexect, herrt, hcountst, ht⟩ := (toBytes_retires herr hwfk).exists_next herr
    rw [← hcountst] at hwfd hwfm
    obtain ⟨u, hexecu, herru, hcountsu, hu⟩ := (fromBytes_retires herrt hwfd).exists_next herrt
    rw [← hcountsu] at hwfm
    obtain ⟨v, hexecv, -, -, hv⟩ := (toBytes_retires herru hwfm).exists_next herru
    have hlt := mod_P_lt (eval (digits (s.readF a)))
    rw [ht htight, leValue_packBytes (hlt.trans (by decide)), Nat.mod_eq_of_lt hlt] at hu
    have hvalue : eval (digits (u.readF d)) = eval (digits (s.readF a)) % P := by rw [hu, eval_digitsOf hlt]
    refine ⟨t, u, v, hexect, hexecu, hexecv, ⟨?_, ?_⟩, hvalue, ?_⟩
    · exact hvalue.trans_lt (Nat.mod_lt _ P_pos)
    · rw [hu]
      exact digitsOf_le_mask _
    · rw [hv (hu ▸ digitsOf_tight _), hvalue, Nat.mod_mod, ht htight]
  · obtain ⟨t, hexect, -, -, -, -, -, -, hthen⟩ := fromBytesOfAnyContents s d k m herr hwfd
    obtain ⟨u, hexecu, -, -, hu⟩ := hthen hwfm
    refine ⟨t, u, hexect, hexecu, hu, ?_⟩
    rw [hu]
    exact mod_mod_P_eq_self_iff _

end Sys2Proof.Machine
end

section
/-! SUPPORT. Command faults (R171, R172, R174): which word raises which fault, and what taking one changes. -/

namespace Sys2Proof.Machine

/-! ### The fault a word raises -/

theorem wordFault_of_decode {c : Counts} {w : Word} {i : Instr} (h : decode w = .ok i) :
    wordFault c w = formFault c i := by
  rw [← encode_of_decode h, wordFault_encode]

theorem formFault_ne_illegalCommand (c : Counts) (i : Instr) : formFault c i ≠ some .illegalCommand := by
  rcases formFault_cases c i with ⟨-, e⟩ | ⟨-, -, e⟩ | ⟨-, e⟩ <;> simp [e]

theorem formFault_eq_regRange_iff {c : Counts} {i : Instr} :
    formFault c i = some .regRange ↔ i.inRange c = false := by
  refine ⟨fun h => ?_, formFault_of_not_inRange⟩
  rcases formFault_cases c i with ⟨hr, -⟩ | ⟨-, -, e⟩ | ⟨-, e⟩
  · exact hr
  · simp [e] at h
  · simp [e] at h

theorem formFault_eq_aliased_iff {c : Counts} {i : Instr} :
    formFault c i = some .aliased ↔ i.inRange c = true ∧ i.noAlias = false := by
  refine ⟨fun h => ?_, fun ⟨hr, ha⟩ => formFault_of_not_noAlias hr ha⟩
  rcases formFault_cases c i with ⟨-, e⟩ | ⟨hr, ha, -⟩ | ⟨-, e⟩
  · simp [e] at h
  · exact ⟨hr, ha⟩
  · simp [e] at h

section

variable {c : Counts} {w : Word}

/-- R91: cause 1 is for the words of no row. -/
theorem wordFault_eq_illegalCommand_iff :
    wordFault c w = some .illegalCommand ↔ ∀ r ∈ opcodeTable, r.selects w = false := by
  rw [no_row_iff_decode_error]
  cases hd : decode w with
  | error e => exact iff_of_true (wordFault_of_decode_error hd) ⟨e, rfl⟩
  | ok i =>
    rw [wordFault_of_decode hd]
    exact iff_of_false (formFault_ne_illegalCommand c i) (by simp)

/-- Causes 2 and 3 are for the words of a command, and its form decides. -/
theorem wordFault_eq_formFault_iff {k : CommandFault} (hk : k ≠ .illegalCommand) :
    wordFault c w = some k ↔ ∃ i, decode w = .ok i ∧ formFault c i = some k := by
  cases hd : decode w with
  | error e => simp [wordFault_of_decode_error hd, hk.symm]
  | ok i => simp [wordFault_of_decode hd]

end

theorem inRange_eq_false_iff {c : Counts} {i : Instr} :
    i.inRange c = false ↔ ∃ q ∈ regsOf i, countOf c q.file ≤ q.idx.val := by
  rw [← Bool.not_eq_true, inRange_iff]
  simp

theorem noAlias_eq_false_iff {i : Instr} : i.noAlias = false ↔ destOf i ∈ sourcesOf i := by
  rw [← Bool.not_eq_true, noAlias_iff]
  simp

/-- Settles O8: a word either decodes, and then the checks on its command's registers decide, or no row selects it. -/
theorem faultCausesAreTheTable : Obligations.FaultCausesAreTheTable := by
  refine ⟨⟨rfl, rfl, rfl⟩, fun c w => ⟨wordFault_eq_illegalCommand_iff, ?_, ?_, fun k n => ⟨?_, ?_⟩⟩⟩
  · rw [wordFault_eq_formFault_iff (by decide)]
    simp only [formFault_eq_regRange_iff, inRange_eq_false_iff]
  · rw [wordFault_eq_formFault_iff (by decide)]
    simp only [formFault_eq_aliased_iff, inRange_iff, noAlias_eq_false_iff]
  · simp [wordFault_encode, formFault_eq_aliased_iff, Instr.noAlias]
  · simp [wordFault_encode, formFault_eq_aliased_iff, Instr.noAlias]

/-! ### Taking a fault -/

/-- R89 steps 2 to 4, R172: a word that raises a fault, issued to an engine that has not faulted. -/
theorem hostWrite_cmd_of_wordFault {s : State} {w : Word} {k : CommandFault} (herr : s.err = false)
    (hw : wordFault s.counts w = some k) : hostWrite (offsetAt 0x000) w s = .next (s.raiseFault k w) := by
  cases hd : decode w with
  | error e =>
    obtain rfl : .illegalCommand = k := by simpa [wordFault_of_decode_error hd] using hw
    exact hostWrite_cmd_of_no_row herr ((no_row_iff_decode_error w).2 ⟨e, hd⟩)
  | ok i =>
    rw [wordFault_of_decode hd] at hw
    obtain ⟨e, he, -⟩ := exec_shape i s
    rw [hostWrite_cmd, issueCommand_of_decode hd, he, State.perform, hw, encode_of_decode hd, if_neg (by simp [herr])]

/-- Settles O9: what the host reads at the three offsets is what the fault has put there. -/
theorem faultEntryIsPrecise : Obligations.FaultEntryIsPrecise := by
  intro s w k herr hw
  refine ⟨_, hostWrite_cmd_of_wordFault herr hw, rfl, rfl, rfl, rfl, rfl, rfl, rfl, rfl, rfl, ?_, ?_, ?_⟩
  · simp only [State.windowRead, portOf_status]
    rfl
  · simp only [State.windowRead, portOf_cause]
    rfl
  · simp only [State.windowRead, portOf_errcmd]
    rfl

/-! ### Several causes at once (R174) -/

/-- A word that decodes has the `op` of its command's row alone. -/
theorem exists_row_op_iff {w : Word} {i : Instr} (h : decode w = .ok i) (p : List Reg → Prop) :
    (∃ r ∈ opcodeTable, r.op = (fields w).op ∧ p (namedRegs r w)) ↔ p (regsOf i) := by
  obtain ⟨r, hr, hsel, hrow⟩ := exists_row_of_decode h
  have hop := ((selects_iff_fits hr w).1 hsel).op
  rw [hrow.regs]
  refine ⟨fun ⟨q, hq, hqop, hp⟩ => ?_, fun hp => ⟨r, hr, hop.symm, hp⟩⟩
  cases opcodeTable_op_injective q hq r hr (hqop.trans hop)
  exact hp

section

variable {c : Counts} {w : Word} {i : Instr}

theorem faultApplies_illegalCommand_iff :
    FaultApplies c w .illegalCommand ↔ wordFault c w = some .illegalCommand :=
  wordFault_eq_illegalCommand_iff.symm

/-- R89 step 3, judged on its own, of a word that decodes is its command's. -/
theorem faultApplies_regRange_iff (h : decode w = .ok i) : FaultApplies c w .regRange ↔ i.inRange c = false :=
  (exists_row_op_iff h fun l => ∃ q ∈ l, countOf c q.file ≤ q.idx.val).trans inRange_eq_false_iff.symm

/-- R89 step 4, judged on its own, of a word that decodes is its command's. -/
theorem faultApplies_aliased_iff (h : decode w = .ok i) : FaultApplies c w .aliased ↔ i.noAlias = false := by
  refine (exists_row_op_iff h fun l => ∃ q ∈ l.tail, l.head? = some q).trans ?_
  simp [regsOf, noAlias_eq_false_iff]

end

theorem CommandFault.code_toNat_injective {j k : CommandFault} (h : j.code.toNat = k.code.toNat) : j = k := by
  cases j <;> cases k <;> simp_all [CommandFault.code]

section

variable {c : Counts} {w : Word} {k : CommandFault}

/-- The fault a word raises applies to it, and no lower-numbered one does. -/
theorem wordFault_isLowest (h : wordFault c w = some k) :
    FaultApplies c w k ∧ ∀ j, FaultApplies c w j → k.code.toNat ≤ j.code.toNat := by
  cases k with
  | illegalCommand => exact ⟨faultApplies_illegalCommand_iff.2 h, fun j _ => by cases j <;> decide⟩
  | regRange =>
    obtain ⟨i, hi, hform⟩ := (wordFault_eq_formFault_iff (by decide)).1 h
    refine ⟨(faultApplies_regRange_iff hi).2 (formFault_eq_regRange_iff.1 hform), fun j hj => ?_⟩
    cases j with
    | illegalCommand => simp [h, faultApplies_illegalCommand_iff] at hj
    | regRange | aliased => decide
  | aliased =>
    obtain ⟨i, hi, hform⟩ := (wordFault_eq_formFault_iff (by decide)).1 h
    obtain ⟨hr, ha⟩ := formFault_eq_aliased_iff.1 hform
    refine ⟨(faultApplies_aliased_iff hi).2 ha, fun j hj => ?_⟩
    cases j with
    | illegalCommand => simp [h, faultApplies_illegalCommand_iff] at hj
    | regRange => simp [hr, faultApplies_regRange_iff hi] at hj
    | aliased => exact le_rfl

/-- A word to which a fault applies raises one, this or another. -/
theorem exists_wordFault_of_faultApplies (h : FaultApplies c w k) : ∃ j, wordFault c w = some j := by
  rw [← Option.ne_none_iff_exists']
  intro hnone
  cases hd : decode w with
  | error e => simp [wordFault_of_decode_error hd] at hnone
  | ok i =>
    rw [wordFault_of_decode hd, formFault_eq_none, Instr.wf, Bool.and_eq_true] at hnone
    obtain ⟨hr, ha⟩ := hnone
    cases k with
    | illegalCommand =>
      rw [faultApplies_illegalCommand_iff, wordFault_of_decode hd] at h
      exact formFault_ne_illegalCommand c i h
    | regRange => simp [hr, faultApplies_regRange_iff hd] at h
    | aliased => simp [ha, faultApplies_aliased_iff hd] at h

/-- The lowest-numbered fault that applies to a word is the one it raises. -/
theorem wordFault_of_isLowest (h : FaultApplies c w k)
    (hlow : ∀ j, FaultApplies c w j → k.code.toNat ≤ j.code.toNat) : wordFault c w = some k := by
  obtain ⟨j, hj⟩ := exists_wordFault_of_faultApplies h
  obtain ⟨happlies, hlow'⟩ := wordFault_isLowest hj
  rwa [CommandFault.code_toNat_injective ((hlow j happlies).antisymm (hlow' k h))]

/-- R91: a word whose `zero` field is not 0 is illegal, whatever its other fields. -/
theorem wordFault_of_zero_ne (h : (fields w).zero ≠ 0) : wordFault c w = some .illegalCommand :=
  wordFault_eq_illegalCommand_iff.2 ((no_row_iff_fields w).2 (.inl h))

end

/-- Settles O10: the checks of R89 are made in the order of their codes, and on a word that decodes each of them is the
check judged on its own. -/
theorem lowestCauseIsReported : Obligations.LowestCauseIsReported := by
  refine ⟨fun c w k => ⟨wordFault_isLowest, fun ⟨h, hlow⟩ => wordFault_of_isLowest h hlow⟩,
    fun s w k herr h hlow => hostWrite_cmd_of_wordFault herr (wordFault_of_isLowest h hlow),
    fun c w => wordFault_of_zero_ne, fun c => wordFault_of_zero_ne (by decide), fun c hc => ?_, fun c hc => ?_⟩
  · rw [wordFault_encode, formFault_eq_regRange_iff]
    simp [Instr.inRange, hc]
  · rw [wordFault_encode, formFault_eq_aliased_iff]
    exact ⟨by simpa [Instr.inRange, Nat.lt_iff_add_one_le] using hc, rfl⟩

end Sys2Proof.Machine
end

section
/-! SUPPORT. The halted state (R173): commands are discarded, data registers are accessed as ever, and only a reset
ends it. -/

namespace Sys2Proof.Machine

section

variable {s : State}

/-- R89 step 1. -/
theorem hostWrite_cmd_halted (herr : s.err = true) (w : Word) : hostWrite (offsetAt 0x000) w s = .next s :=
  (issueRunsTheFiveSteps.2 s w).1 herr

/-- A write that issues a command is the write of `CMD`, the one offset of that port. -/
theorem HostOp.eq_of_issues {c : Counts} {op : HostOp} (h : op.issues c = true) :
    ∃ w, op = .write (offsetAt 0x000) w := by
  cases op with
  | write off w =>
    have hp : portOf c off = .cmd := by simpa [HostOp.issues] using h
    exact ⟨w, by rw [eq_offsetAt (portOf_eq_exact hp (by simp)).2, offsetOfPort]⟩
  | read | hardReset => simp [HostOp.issues] at h

/-- A write of a data register stores the same whether `ERR` is 0 or 1. -/
theorem hostWrite_of_reg_setErr {t : State} {off : Offset} (hr : (portOf s.counts off).reg ≠ none) (v : Word)
    (e : Bool) (h : hostWrite off v s = .next t) : hostWrite off v { s with err := e } = .next { t with err := e } := by
  cases hp : portOf s.counts off with
  | word k =>
    rw [hostWrite_word hp] at h
    cases h
    exact hostWrite_word (s := { s with err := e }) hp v
  | bufWord k m =>
    rw [hostWrite_bufWord hp] at h
    cases h
    exact hostWrite_bufWord (s := { s with err := e }) hp v
  | limb k i =>
    rw [hostWrite_limb hp] at h
    cases h
    exact hostWrite_limb (s := { s with err := e }) hp v
  | cmd | status | cause | errcmd | ctrl | reserved => simp [hp, Port.reg] at hr

/-- A data register reads the same whether `ERR` is 0 or 1. -/
theorem State.windowRead_of_reg_setErr {off : Offset} (hr : (portOf s.counts off).reg ≠ none) (e : Bool) :
    ({ s with err := e } : State).windowRead off = s.windowRead off := by
  cases hp : portOf s.counts off with
  | word k => exact (State.windowRead_word (s := { s with err := e }) hp).trans (State.windowRead_word hp).symm
  | bufWord k m =>
    exact (State.windowRead_bufWord (s := { s with err := e }) hp).trans (State.windowRead_bufWord hp).symm
  | limb k i => exact (State.windowRead_limb (s := { s with err := e }) hp).trans (State.windowRead_limb hp).symm
  | cmd | status | cause | errcmd | ctrl | reserved => simp [hp, Port.reg] at hr

/-- A reset, hard or soft, is an engine reset (R190). -/
theorem performOp_of_resets {op : HostOp} (h : op.resets s.counts = true) :
    performOp op s = .next s.engineReset := by
  cases op with
  | write off v =>
    obtain ⟨hp, hv⟩ : portOf s.counts off = .ctrl ∧ v.getLsbD 0 = true := by simpa [HostOp.resets] using h
    simp only [performOp, hostWrite, hp, hv, if_true]
  | read off => simp [HostOp.resets] at h
  | hardReset => rfl

/-- While `ERR` is 1 an operation that is no reset leaves the three status registers as they are. -/
theorem performOp_halted {t : State} (herr : s.err = true) {op : HostOp} (h : op.resets s.counts = false)
    (hop : performOp op s = .next t) : t.err = true ∧ t.cause = s.cause ∧ t.errcmd = s.errcmd := by
  cases op with
  | write off v =>
    rw [performOp] at hop
    rcases hostWrite_cases off v s with
      ⟨hp, -⟩ | ⟨hp, hv, -⟩ | ⟨k, -, e⟩ | ⟨k, m, -, e⟩ | ⟨k, i, -, e⟩ | e
    · rw [eq_offsetAt (portOf_eq_exact hp (by simp)).2, offsetOfPort, hostWrite_cmd_halted herr] at hop
      cases hop
      exact ⟨herr, rfl, rfl⟩
    · simp only [HostOp.resets, hp, hv] at h
      cases h
    all_goals
      rw [e] at hop
      cases hop
      exact ⟨herr, rfl, rfl⟩
  | read off =>
    cases hop
    exact ⟨herr, rfl, rfl⟩
  | hardReset => simp [HostOp.resets] at h

end

/-- Settles O11: of the effects of a host operation only a command's depends on `ERR`, and only a reset clears it. -/
theorem haltedUntilReset : Obligations.HaltedUntilReset := by
  refine fun s herr => ⟨hostWrite_cmd_halted herr, fun off v t hr h => hostWrite_of_reg_setErr hr v false h,
    fun off hr => (State.windowRead_of_reg_setErr hr false).symm, fun op rest t hops hstep => ?_⟩
  rw [step_cons hops] at hstep
  cases hreset : op.resets s.counts with
  | true =>
    rw [performOp_of_resets (s := s.take rest) hreset] at hstep
    cases hstep
    exact .inl ⟨rfl, rfl⟩
  | false => exact .inr ⟨rfl, performOp_halted (s := s.take rest) herr hreset hstep⟩

/-- Settles O12: a discarded command moves the host past its operation, and with none left the step is idle (log
entry 6). -/
theorem haltedRunComputesNothing : Obligations.HaltedRunComputesNothing := by
  intro n
  induction n with
  | zero =>
    intro s _ _
    simp [Host.Core.run]
  | succ n ih =>
    intro s herr hissues
    cases hops : s.ops with
    | nil =>
      have hidle : Sys2Proof.core.run (n + 1) s = Sys2Proof.core.run n s := by
        have hstep : Sys2Proof.core.step s = .next s := step_nil hops
        simp only [Host.Core.run, hstep]
      rw [hidle, ih s herr hissues]
      simp [hops]
    | cons op rest =>
      rw [hops] at hissues
      obtain ⟨w, rfl⟩ := HostOp.eq_of_issues (hissues op List.mem_cons_self)
      rw [run_succ hops (hostWrite_cmd_halted (s := s.take rest) herr w),
        ih (s.take rest) herr fun op hop => hissues op (List.mem_cons_of_mem _ hop)]
      simp only [State.take, List.drop_succ_cons, List.length_cons]
      congr 2
      omega

end Sys2Proof.Machine
end

section
/-! SUPPORT. Commands whose form is accepted (R176): they retire whatever the registers hold, and leave free values
where their data precondition fails (U1, U2). -/

namespace Sys2Proof.Machine

/-! ### Retirement -/

section

variable {s : State} {i : Instr}

theorem WritesReg.written_retire {r : Reg} {u : State} (h : WritesReg r s u)
    (hr : r.idx.val < countOf s.counts r.file) : u.retire.written r = true := by
  obtain ⟨file, k⟩ := r
  cases file <;> obtain ⟨x, rfl⟩ := h
  · exact s.written_writeF x hr
  · exact s.written_writeB x hr
  · exact s.written_writeW x hr

theorem WritesReg.free {r : Reg} {u : State} (h : WritesReg r s u) : u.free = s.free := by
  obtain ⟨file, k⟩ := r
  cases file <;> obtain ⟨x, rfl⟩ := h <;> rfl

/-- R89 step 5, whatever the registers hold: the one write of the destination, and the free counter moves on. -/
theorem retires_of_wf (herr : s.err = false) (hwf : i.wf s.counts = true) :
    Retires i s fun t => t.free = s.free + 1 := by
  obtain ⟨e, he, hw⟩ := exec_shape i s
  exact ⟨(e s).retire, by rw [he, State.perform_wf herr hwf], (hw s).onlyChanges.retire,
    (hw s).written_retire (destOf_lt_of_wf hwf), congrArg (· + 1) (hw s).free⟩

/-- A command has one next state, so what is known of it can be put together. -/
theorem Retires.and {p q : State → Prop} (hp : Retires i s p) (hq : Retires i s q) :
    Retires i s fun t => p t ∧ q t := by
  obtain ⟨t, hexec, hframe, hwritten, ht⟩ := hp
  obtain ⟨u, hexec', -, -, hu⟩ := hq
  obtain rfl : t = u := by simpa [hexec] using hexec'
  exact ⟨t, hexec, hframe, hwritten, ht, hu⟩

end

/-- Settles O13: the prologue looks at the form alone, and the effect never touches the status registers. -/
theorem dataNeverFaults : Obligations.DataNeverFaults := by
  intro s i herr hwf
  obtain ⟨t, hexec, hframe, hwritten, -⟩ := retires_of_wf herr hwf
  exact ⟨t, hexec, hframe.control.err.trans herr, hframe.control.cause, hframe.control.errcmd, hframe, hwritten⟩

/-! ### Commands whose data precondition fails (U1, U2) -/

/-- In `t` every part of the register `r` reads as the free value that `s` draws for that place. -/
def ReadsFree (s : State) (r : Reg) (t : State) : Prop :=
  (r.file = .F → ∀ n : Fin 10, (t.readF r.idx)[n] = Config.unspecLimb s.free n.val) ∧
  (r.file = .B → ∀ j : Fin 32, (t.readB r.idx)[j] = Config.unspecByte s.free j.val) ∧
  (r.file = .W → t.readW r.idx = Config.unspecWord s.free)

section

variable {s t : State} {k : Fin 16}

theorem readsFree_F (h : t.readF k = s.unspecLimbs) : ReadsFree s ⟨.F, k⟩ t :=
  ⟨fun _ n => by simp [h, State.unspecLimbs], nofun, nofun⟩

theorem readsFree_B (h : t.readB k = s.unspecBytes) : ReadsFree s ⟨.B, k⟩ t :=
  ⟨nofun, fun _ j => by simp [h, State.unspecBytes], nofun⟩

theorem readsFree_W (h : t.readW k = s.unspecWord) : ReadsFree s ⟨.W, k⟩ t :=
  ⟨nofun, nofun, fun _ => h⟩

end

/-- Settles O58: each meaning with a precondition writes the free value where it fails, one arm per shape of effect
(log entries 1 and 15). -/
theorem violatedPreconditionGivesFreeValues : Obligations.ViolatedPreconditionGivesFreeValues := by
  intro s i herr hwf hdata
  have hfree : Retires i s (ReadsFree s (destOf i)) := by
    cases i with simp only [DataOk] at hdata
    | add d a b | sub d a b | opp d a | carry d a | carryMul d a b | carrySquare d a | carryScmulConst d a
    | select d a b p =>
      exact (retires_writeF rfl rfl herr hwf).mono fun t ht => readsFree_F (ht.trans (if_neg hdata))
    | cmov d a b p =>
      exact (retires_writeW rfl rfl herr hwf).mono fun t ht => readsFree_W (ht.trans (if_neg hdata))
    | toBytes d a =>
      exact (retires_writeB rfl rfl herr hwf).mono fun t ht => readsFree_B (ht.trans (if_neg hdata))
    | relax d a | fromBytes d a => exact absurd trivial hdata
  exact (retires_of_wf herr hwf).and hfree

end Sys2Proof.Machine
end

section
/-! SUPPORT. Reset (R190): both causes are the engine reset, which leaves the engine as the build's reset does (R42). -/

namespace Sys2Proof.Machine

/-- The data registers after an engine reset are those of the reset state with the same counts. -/
theorem State.engineReset_unwritten (s : State) : s.engineReset.Unwritten :=
  State.resetWith_unwritten s.counts

/-- Settles O15: each cause steps to the engine reset, which clears the engine and leaves the host's fields (log
entries 3 and 7). -/
theorem bothResetsHaveOneEffect : Obligations.BothResetsHaveOneEffect := by
  intro s op hreset
  have hop : performOp op s = .next s.engineReset := performOp_of_resets hreset
  have hhard : performOp .hardReset s = .next s.engineReset := performOp_of_resets rfl
  exact ⟨hop.trans hhard.symm, s.engineReset, hop, rfl, rfl, rfl, s.engineReset_unwritten, s.engineReset_counts,
    s.engineReset_ops, s.engineReset_pc, s.engineReset_reads⟩

end Sys2Proof.Machine
end
